-- ==== Sys2Proof/Word.lean ====
section
/-! DEFINITION. The words of the block: bytes, 16-bit words, the command word and the response word
(spec 00_scope.md R12, R19; 30_encoding.md R80, R91). -/

namespace Sys2Proof

/-- One byte, "integer 0 to 255" (R19). -/
abbrev Byte := BitVec 8

/-- One 16-bit word, "integer 0 to 65535" (R19): a field of the command word, the VALUE of a response. -/
abbrev Word := BitVec 16

/-- The 64-bit command word CW (R80). -/
abbrev CommandWord := BitVec 64

/-- The 32-bit response word RW (R91). -/
abbrev ResponseWord := BitVec 32

/-- The six-bit pattern of a graphics code (R19, R153). -/
abbrev Pattern := BitVec 6

end Sys2Proof
end

