-- ==== Sys2Proof/Config.lean ====
section
/-! DEFINITION. What is fixed for the block: the constants of spec 00_scope.md R7 to R11 and 10_state.md
R28, R29, and the one parameter of the model, `FONT` (43_glyph_renderer.md R192). -/

namespace Sys2Proof

/-- A glyph (R191): `g j k` is the render pixel of line `j` (0 at the top) and column `k` (0 at the
left); `true` is foreground. -/
abbrev Glyph := Fin 12 → Fin 8 → Bool

namespace Config

/-- `ROM_SIZE`, the length of the array `rom` (R7). -/
abbrev romSize : Nat := 16384
/-- `RAM_SIZE`, the length of the array `ram` (R7). -/
abbrev ramSize : Nat := 49152
/-- `RAM_BASE`, the address of `ram[0]` (R7). -/
abbrev ramBase : Nat := 0x4000
/-- `TOTAL_SIZE`, the number of byte addresses (R7). -/
abbrev totalSize : Nat := 65536
/-- `VIDEO_START`, `videoMemoryStart`: the first address of the video window (R7, R28). -/
abbrev videoStart : Nat := 0x3C00
/-- `VIDEO_END`, `videoMemoryEnd`: the last address of the video window (R7, R28). -/
abbrev videoEnd : Nat := 0x3FFF
/-- `VIDEO_SIZE` (R7). -/
abbrev videoSize : Nat := 1024
/-- `columns`, text cells of a row (R8). -/
abbrev columns : Nat := 64
/-- `rows`, text rows (R8). -/
abbrev rows : Nat := 16
/-- `charWidth`, render pixels across a cell (R8). -/
abbrev charWidth : Nat := 8
/-- `charHeight`, render lines of a cell (R8). -/
abbrev charHeight : Nat := 12
/-- `graphicsWidth`, canvas pixels across (R8). -/
abbrev graphicsWidth : Nat := 128
/-- `graphicsHeight`, canvas pixels down (R8). -/
abbrev graphicsHeight : Nat := 48
/-- `GFX_BASE`, the least graphics code (R9). -/
abbrev gfxBase : Nat := 128
/-- `GFX_LAST`, the greatest graphics code (R9). -/
abbrev gfxLast : Nat := 191
/-- `ROM_IMAGE_FULL`, the exact image size (R10). -/
abbrev romImageFull : Nat := 16384
/-- `ROM_IMAGE_SHORT`, the padded image size (R10). -/
abbrev romImageShort : Nat := 14336
/-- `DEFAULT_LOAD_ADDR` (R11). -/
abbrev defaultLoadAddr : Nat := 0x4200
/-- `fgColor` = "#00FF00" as a 24-bit red-green-blue value (R29). -/
def fgColor : BitVec 24 := 0x00FF00
/-- `bgColor` = "#000000" (R29). -/
def bgColor : BitVec 24 := 0x000000

/-- `FONT`, the glyphs of codes 0 to 127: "a constant total function" about which nothing else may be
assumed (R192). A free value: it has no body (log entry 4). -/
opaque font : Fin 128 → Glyph

end Config

end Sys2Proof
end

