-- ==== Sys2Proof/Syntax.lean ====
section
/-! DEFINITION. The operations of the block, one constructor for each row of the opcode map (spec
30_encoding.md R87), with the abstract operands of the family files (00_scope.md R6, R12, R13:
addresses, values and coordinates are mathematical integers), and the commands that carry them. -/

namespace Sys2Proof

/-- The twenty operations. Operand order is the written order of R95. -/
inductive Instr where
  /-- R120 -/
  | getStats
  /-- R121 -/
  | loadROM (data : List Byte)
  /-- R122 -/
  | readByte (address : Int)
  /-- R123 -/
  | writeByte (address value : Int)
  /-- R124 -/
  | readWord (address : Int)
  /-- R125 -/
  | writeWord (address value : Int)
  /-- R126 -/
  | loadProgram (data : List Byte) (address : Int)
  /-- R127 -/
  | clearRAM
  /-- R128 -/
  | getMemoryView
  /-- R155 -/
  | setPixel (x y : Int)
  /-- R156 -/
  | resetPixel (x y : Int)
  /-- R157 -/
  | pointPixel (x y : Int)
  /-- R170 -/
  | writeString (text : List Byte) (row col : Int)
  /-- R171 -/
  | clearScreen
  /-- R172 -/
  | getScreenSnapshot
  /-- R158 -/
  | getGraphicsSnapshot
  /-- R173 -/
  | setTextMode (mode : Bool)
  /-- R174 -/
  | getTextMode
  /-- R196 -/
  | getGlyph (code : Byte)
  /-- R197 -/
  | renderFrame
  deriving DecidableEq, Repr

/-- The rows of the opcode map (R87): an operation without its operands. -/
inductive Opcode where
  | getStats | loadROM | readByte | writeByte | readWord | writeWord | loadProgram | clearRAM
  | getMemoryView | setPixel | resetPixel | pointPixel | writeString | clearScreen
  | getScreenSnapshot | getGraphicsSnapshot | setTextMode | getTextMode | getGlyph | renderFrame
  deriving DecidableEq, Repr

/-- The nine formats (R82): which of the fields A, B, C carry an operand. -/
inductive Format where
  | N | A | AV | XY | L | AL | RCL | M | G
  deriving DecidableEq, Repr

/-- A command `(CW, PAYLOAD)` (R80). -/
structure Command where
  word : CommandWord
  payload : List Byte
  deriving DecidableEq, Repr

/-- Why a command decodes to no operation (R88, R89). Every reason executes alike, as `IllegalCommand`
(R214); the names are the model's own. -/
inductive Illegal where
  /-- OP is no row of R87. -/
  | unknownOpcode
  /-- RSV, or a field or part of a field the format leaves unused, is not zero. -/
  | reservedField
  /-- The payload's length is not what the format and LEN ask for. -/
  | payloadLength
  deriving DecidableEq, Repr

end Sys2Proof
end

