-- ==== Sys2Proof/WellFormed.lean ====
section
/-! DEFINITION. Which operations the command port can carry: operand domains of spec 30_encoding.md R83
to R86 (00_scope.md R12). The rules give every operation its effect for wider operands too, and so do
the meanings; only the encoder and the decoder are bound to the port's widths. -/

namespace Sys2Proof

/-- An unsigned 16-bit field: an address (R83) or a data value (R84). -/
def fitsUnsigned (a : Int) : Bool := decide (0 ≤ a ∧ a < 65536)

/-- A two's-complement 16-bit field: a coordinate, a row or a column (R85). -/
def fitsSigned (a : Int) : Bool := decide (-32768 ≤ a ∧ a ≤ 32767)

/-- A payload whose length the field LEN can carry (R86). -/
def fitsLength (data : List Byte) : Bool := decide (data.length ≤ 65535)

/-- The operands are those a command word can carry (R83 to R86). -/
def wellFormed : Instr → Bool
  | .getStats => true
  | .loadROM data => fitsLength data
  | .readByte address => fitsUnsigned address
  | .writeByte address value => fitsUnsigned address && fitsUnsigned value
  | .readWord address => fitsUnsigned address
  | .writeWord address value => fitsUnsigned address && fitsUnsigned value
  | .loadProgram data address => fitsLength data && fitsUnsigned address
  | .clearRAM => true
  | .getMemoryView => true
  | .setPixel x y => fitsSigned x && fitsSigned y
  | .resetPixel x y => fitsSigned x && fitsSigned y
  | .pointPixel x y => fitsSigned x && fitsSigned y
  | .writeString text row col => fitsLength text && fitsSigned row && fitsSigned col
  | .clearScreen => true
  | .getScreenSnapshot => true
  | .getGraphicsSnapshot => true
  | .setTextMode _ => true
  | .getTextMode => true
  | .getGlyph _ => true
  | .renderFrame => true

end Sys2Proof
end

