-- ==== Sys2Proof/Decode.lean ====
section
/-! DEFINITION. The command decoder (spec 30_encoding.md R81 to R90), total on every command and refusing
by name, then the encoder, the written form of an operation (R95, R96), and the decoder as the opcode
table numbers its words. -/

namespace Sys2Proof

/-- The operation code OP of each row (R87). -/
def Opcode.code : Opcode → Byte
  | .getStats => 0x01
  | .loadROM => 0x02
  | .readByte => 0x03
  | .writeByte => 0x04
  | .readWord => 0x05
  | .writeWord => 0x06
  | .loadProgram => 0x07
  | .clearRAM => 0x08
  | .getMemoryView => 0x09
  | .setPixel => 0x10
  | .resetPixel => 0x11
  | .pointPixel => 0x12
  | .writeString => 0x13
  | .clearScreen => 0x14
  | .getScreenSnapshot => 0x15
  | .getGraphicsSnapshot => 0x16
  | .setTextMode => 0x17
  | .getTextMode => 0x18
  | .getGlyph => 0x19
  | .renderFrame => 0x1A

/-- The format of each row (R82, R87). -/
def Opcode.format : Opcode → Format
  | .getStats => .N
  | .loadROM => .L
  | .readByte => .A
  | .writeByte => .AV
  | .readWord => .A
  | .writeWord => .AV
  | .loadProgram => .AL
  | .clearRAM => .N
  | .getMemoryView => .N
  | .setPixel => .XY
  | .resetPixel => .XY
  | .pointPixel => .XY
  | .writeString => .RCL
  | .clearScreen => .N
  | .getScreenSnapshot => .N
  | .getGraphicsSnapshot => .N
  | .setTextMode => .M
  | .getTextMode => .N
  | .getGlyph => .G
  | .renderFrame => .N

/-- The rows of R87 in its order. -/
def Opcode.all : List Opcode :=
  [.getStats, .loadROM, .readByte, .writeByte, .readWord, .writeWord, .loadProgram, .clearRAM,
   .getMemoryView, .setPixel, .resetPixel, .pointPixel, .writeString, .clearScreen,
   .getScreenSnapshot, .getGraphicsSnapshot, .setTextMode, .getTextMode, .getGlyph, .renderFrame]

/-- The row whose OP is `c`, if there is one (R88, first line). -/
def Opcode.ofCode? (c : Byte) : Option Opcode :=
  Opcode.all.find? fun op => op.code == c

/-- The mask of each format: a 1 in every bit that is fixed for the operation (R82). -/
def Format.mask : Format → CommandWord
  | .N => 0xFFFFFFFFFFFFFFFF
  | .A => 0xFFFF0000FFFFFFFF
  | .AV => 0xFFFF00000000FFFF
  | .XY => 0xFFFF00000000FFFF
  | .L => 0xFFFFFFFFFFFF0000
  | .AL => 0xFFFF0000FFFF0000
  | .RCL => 0xFFFF000000000000
  | .M => 0xFFFFFFFFFFFFFFFE
  | .G => 0xFFFFFFFFFFFFFF00

/-- The formats whose commands carry LEN payload bytes (R82, R86). -/
def Format.hasPayload : Format → Bool
  | .L => true
  | .AL => true
  | .RCL => true
  | .N => false
  | .A => false
  | .AV => false
  | .XY => false
  | .M => false
  | .G => false

/-- The match value of a row, `OP << 56` (R82). -/
def Opcode.matchWord (op : Opcode) : CommandWord := op.code.setWidth 64 <<< 56

/-- The field OP = CW[63:56] (R81). -/
def fieldOp (cw : CommandWord) : Byte := cw.extractLsb' 56 8
/-- The field RSV = CW[55:48] (R81). -/
def fieldRsv (cw : CommandWord) : Byte := cw.extractLsb' 48 8
/-- The field A = CW[47:32] (R81). -/
def fieldA (cw : CommandWord) : Word := cw.extractLsb' 32 16
/-- The field B = CW[31:16] (R81). -/
def fieldB (cw : CommandWord) : Word := cw.extractLsb' 16 16
/-- The field C = CW[15:0] (R81); LEN where the format has a payload (R86). -/
def fieldC (cw : CommandWord) : Word := cw.extractLsb' 0 16

/-- An unsigned operand field (R83, R84). -/
def unsignedOperand (w : Word) : Int := (w.toNat : Int)
/-- A two's-complement operand field, `signed_16` (R14, R85). -/
def signedOperand (w : Word) : Int := w.toInt

/-- The payload length a command word asks for: LEN for the payload formats, else 0 (R86). -/
def payloadLength (op : Opcode) (cw : CommandWord) : Nat :=
  if op.format.hasPayload then (fieldC cw).toNat else 0

/-- The row's operation with its operands assembled from the fields (R83 to R86). -/
def Opcode.operation (op : Opcode) (cw : CommandWord) (payload : List Byte) : Instr :=
  match op with
  | .getStats => .getStats
  | .loadROM => .loadROM payload
  | .readByte => .readByte (unsignedOperand (fieldA cw))
  | .writeByte => .writeByte (unsignedOperand (fieldA cw)) (unsignedOperand (fieldB cw))
  | .readWord => .readWord (unsignedOperand (fieldA cw))
  | .writeWord => .writeWord (unsignedOperand (fieldA cw)) (unsignedOperand (fieldB cw))
  | .loadProgram => .loadProgram payload (unsignedOperand (fieldA cw))
  | .clearRAM => .clearRAM
  | .getMemoryView => .getMemoryView
  | .setPixel => .setPixel (signedOperand (fieldA cw)) (signedOperand (fieldB cw))
  | .resetPixel => .resetPixel (signedOperand (fieldA cw)) (signedOperand (fieldB cw))
  | .pointPixel => .pointPixel (signedOperand (fieldA cw)) (signedOperand (fieldB cw))
  | .writeString => .writeString payload (signedOperand (fieldA cw)) (signedOperand (fieldB cw))
  | .clearScreen => .clearScreen
  | .getScreenSnapshot => .getScreenSnapshot
  | .getGraphicsSnapshot => .getGraphicsSnapshot
  | .setTextMode => .setTextMode ((fieldC cw).getLsbD 0)
  | .getTextMode => .getTextMode
  | .getGlyph => .getGlyph ((fieldC cw).setWidth 8)
  | .renderFrame => .renderFrame

/-- The decoder, total on every command (R88): the tests in the rule's order, an `error` where the rule
says ILLEGAL. -/
def decode (cmd : Command) : Except Illegal Instr :=
  match Opcode.ofCode? (fieldOp cmd.word) with
  | none => .error .unknownOpcode
  | some op =>
    if cmd.word &&& op.format.mask ≠ op.matchWord then .error .reservedField
    else if cmd.payload.length ≠ payloadLength op cmd.word then .error .payloadLength
    else .ok (op.operation cmd.word cmd.payload)

/-- The whole size in bytes of a command, from OP and C alone (R90). -/
def commandSize (cw : CommandWord) : Nat :=
  8 + if fieldOp cw = 0x02 ∨ fieldOp cw = 0x07 ∨ fieldOp cw = 0x13 then (fieldC cw).toNat else 0

/-! ### The encoder -/

/-- `CW = (OP, RSV, A, B, C)` with RSV zero (R81). -/
def commandWord (op : Opcode) (a b c : Word) : CommandWord :=
  op.code ++ (0 : Byte) ++ a ++ b ++ c

/-- The 16-bit field that carries an integer operand, signed or unsigned: its residue modulo 65536, "a
caller with a wider address truncates it to 16 bits" (R83). -/
def operandField (a : Int) : Word := BitVec.ofInt 16 a

/-- The field LEN of a payload (R86). -/
def lengthField (data : List Byte) : Word := BitVec.ofNat 16 data.length

/-- The command of an operation (R81 to R87). -/
def encode : Instr → Command
  | .getStats => ⟨commandWord .getStats 0 0 0, []⟩
  | .loadROM data => ⟨commandWord .loadROM 0 0 (lengthField data), data⟩
  | .readByte address => ⟨commandWord .readByte (operandField address) 0 0, []⟩
  | .writeByte address value =>
      ⟨commandWord .writeByte (operandField address) (operandField value) 0, []⟩
  | .readWord address => ⟨commandWord .readWord (operandField address) 0 0, []⟩
  | .writeWord address value =>
      ⟨commandWord .writeWord (operandField address) (operandField value) 0, []⟩
  | .loadProgram data address =>
      ⟨commandWord .loadProgram (operandField address) 0 (lengthField data), data⟩
  | .clearRAM => ⟨commandWord .clearRAM 0 0 0, []⟩
  | .getMemoryView => ⟨commandWord .getMemoryView 0 0 0, []⟩
  | .setPixel x y => ⟨commandWord .setPixel (operandField x) (operandField y) 0, []⟩
  | .resetPixel x y => ⟨commandWord .resetPixel (operandField x) (operandField y) 0, []⟩
  | .pointPixel x y => ⟨commandWord .pointPixel (operandField x) (operandField y) 0, []⟩
  | .writeString text row col =>
      ⟨commandWord .writeString (operandField row) (operandField col) (lengthField text), text⟩
  | .clearScreen => ⟨commandWord .clearScreen 0 0 0, []⟩
  | .getScreenSnapshot => ⟨commandWord .getScreenSnapshot 0 0 0, []⟩
  | .getGraphicsSnapshot => ⟨commandWord .getGraphicsSnapshot 0 0 0, []⟩
  | .setTextMode mode => ⟨commandWord .setTextMode 0 0 (if mode then 1 else 0), []⟩
  | .getTextMode => ⟨commandWord .getTextMode 0 0 0, []⟩
  | .getGlyph code => ⟨commandWord .getGlyph 0 0 (code.setWidth 16), []⟩
  | .renderFrame => ⟨commandWord .renderFrame 0 0 0, []⟩

/-! ### The written form -/

/-- The row an operation belongs to. -/
def Instr.opcode : Instr → Opcode
  | .getStats => .getStats
  | .loadROM _ => .loadROM
  | .readByte _ => .readByte
  | .writeByte _ _ => .writeByte
  | .readWord _ => .readWord
  | .writeWord _ _ => .writeWord
  | .loadProgram _ _ => .loadProgram
  | .clearRAM => .clearRAM
  | .getMemoryView => .getMemoryView
  | .setPixel _ _ => .setPixel
  | .resetPixel _ _ => .resetPixel
  | .pointPixel _ _ => .pointPixel
  | .writeString _ _ _ => .writeString
  | .clearScreen => .clearScreen
  | .getScreenSnapshot => .getScreenSnapshot
  | .getGraphicsSnapshot => .getGraphicsSnapshot
  | .setTextMode _ => .setTextMode
  | .getTextMode => .getTextMode
  | .getGlyph _ => .getGlyph
  | .renderFrame => .renderFrame

/-- The mnemonic of a row, the source's operation name letter for letter (R87). -/
def Opcode.mnemonic : Opcode → String
  | .getStats => "getStats"
  | .loadROM => "loadROM"
  | .readByte => "readByte"
  | .writeByte => "writeByte"
  | .readWord => "readWord"
  | .writeWord => "writeWord"
  | .loadProgram => "loadProgram"
  | .clearRAM => "clearRAM"
  | .getMemoryView => "getMemoryView"
  | .setPixel => "setPixel"
  | .resetPixel => "resetPixel"
  | .pointPixel => "pointPixel"
  | .writeString => "writeString"
  | .clearScreen => "clearScreen"
  | .getScreenSnapshot => "getScreenSnapshot"
  | .getGraphicsSnapshot => "getGraphicsSnapshot"
  | .setTextMode => "setTextMode"
  | .getTextMode => "getTextMode"
  | .getGlyph => "getGlyph"
  | .renderFrame => "renderFrame"

/-- A bracketed byte list (R95). -/
def writtenBytes (data : List Byte) : String :=
  "[" ++ String.intercalate ", " (data.map fun b => toString b.toNat) ++ "]"

/-- The operands in the written order (R95), each as text; texts are written as byte lists. -/
def Instr.writtenOperands : Instr → List String
  | .getStats => []
  | .loadROM data => [writtenBytes data]
  | .readByte address => [toString address]
  | .writeByte address value => [toString address, toString value]
  | .readWord address => [toString address]
  | .writeWord address value => [toString address, toString value]
  | .loadProgram data address => [writtenBytes data, toString address]
  | .clearRAM => []
  | .getMemoryView => []
  | .setPixel x y => [toString x, toString y]
  | .resetPixel x y => [toString x, toString y]
  | .pointPixel x y => [toString x, toString y]
  | .writeString text row col => [writtenBytes text, toString row, toString col]
  | .clearScreen => []
  | .getScreenSnapshot => []
  | .getGraphicsSnapshot => []
  | .setTextMode mode => [if mode then "true" else "false"]
  | .getTextMode => []
  | .getGlyph code => [toString code.toNat]
  | .renderFrame => []

/-- The written form of an operation (R95): mnemonic, then the operands separated by commas. -/
def Instr.written (i : Instr) : String :=
  match i.writtenOperands with
  | [] => i.opcode.mnemonic
  | ops => i.opcode.mnemonic ++ " " ++ String.intercalate ", " ops

/-- The one pseudo-operation: `loadProgram data` stands for `loadProgram data, 0x4200` (R96). -/
def loadProgramDefault (data : List Byte) : Instr :=
  .loadProgram data (Config.defaultLoadAddr : Int)

/-! ### Words as the opcode table numbers them -/

/-- `n` payload bytes read from the bits of `w` upward, the first byte in the lowest bits. -/
def payloadBits : Nat → Nat → List Byte
  | 0, _ => []
  | n + 1, w => BitVec.ofNat 8 w :: payloadBits n (w / 256)

/-- The command whose bits are `w`: bits 63:0 are the command word, the payload's bytes count on from
bit 64, and every bit at `nbits` or above is zero. Its payload has the length the word asks for. -/
def tableCommand (nbits w : Nat) : Command :=
  let bits := w % 2 ^ nbits
  let cw : CommandWord := BitVec.ofNat 64 bits
  ⟨cw, payloadBits (commandSize cw - 8) (bits / 2 ^ 64)⟩

/-- The operation the decoder reads from the bits `w`, numbered as the opcode table numbers them. -/
def decodeTableWord (nbits w : Nat) : Option Instr :=
  match decode (tableCommand nbits w) with
  | .ok i => some i
  | .error _ => none

end Sys2Proof
end

