-- ==== Sys2Proof/Machine/State.lean ====
section
/-! DEFINITION. The state of the block (spec 10_state.md R20 to R37), its responses and failures
(30_encoding.md R91, R92; 60_exceptions.md R210), and the state after reset (10_state.md R35). -/

namespace Sys2Proof.Machine

/-- The contents of one byte array as pairs (index, byte). An index that is not listed holds the reset
content 0x00 (R35); the canonical form is `Memory.wf` of Machine/Ops.lean. -/
abbrev Memory := List Host.Cell

/-- The four failures (R210). A failure is the answer to one command: the block goes on (R219), so it is
carried in a response and is not a `Fault`. -/
inductive Failure where
  /-- `loadROM` with a length that is neither 14336 nor 16384 (R211). -/
  | invalidROMSize
  /-- `loadProgram` with data and a target below 0x4000 (R212). -/
  | programTargetsROM
  /-- `loadProgram` whose range wraps past 0xFFFF (R213). -/
  | programTooLarge
  /-- A command that decodes to no operation (R214). -/
  | illegalCommand
  deriving DecidableEq, Repr

/-- The status of a response (R92). -/
inductive Status where
  | ok
  | failed (f : Failure)
  deriving DecidableEq, Repr

/-- A response (R91): the status and VALUE of the response word, and the response payload. -/
structure Response where
  status : Status
  value : Word
  payload : List Byte
  deriving DecidableEq, Repr

/-- The state. `rom`, `ram`, `romLoaded` and `textMode` are the block's mutable state, "exactly these
four components and nothing else" (R20); `commands` and `responses` are the model's own fields for the
input and the output of the step function (R37; log entries 1 and 2). -/
structure State where
  /-- The array `rom`, index 0 to 16383, the bytes at addresses 0x0000 to 0x3FFF (R21). -/
  rom : Memory
  /-- The array `ram`, index 0 to 49151, the bytes at addresses 0x4000 to 0xFFFF (R22). -/
  ram : Memory
  /-- A ROM image has been installed (R23). -/
  romLoaded : Bool
  /-- The flag that affects nothing (R27). -/
  textMode : Bool
  /-- The commands the caller will issue, oldest first. -/
  commands : List Command
  /-- The responses given so far, oldest first. -/
  responses : List Response
  deriving DecidableEq, Repr

/-- The state after reset: both arrays zero-filled, `romLoaded` false, `textMode` true (R35, R240). -/
def State.reset : State where
  rom := []
  ram := []
  romLoaded := false
  textMode := true
  commands := []
  responses := []

/-- Why the machine stops with a fault. There is no reason: the step function is total and the block
"never halts, hangs or becomes stuck of its own accord" (R250), so this type has no constructor. -/
inductive Fault where
  deriving DecidableEq, Repr

/-- Why a step has no meaning. -/
inductive Refusal where
  /-- Raised by a dispatch arm whose operation has no meaning yet; safe, since the model then stops where
  the block goes on. No arm raises it in this model. -/
  | notModelled (mnemonic : String)
  deriving DecidableEq, Repr

end Sys2Proof.Machine
end

