-- ==== Sys2Proof/Machine/Flags.lean ====
section
/-! DEFINITION. The two flag bits `romLoaded` and `textMode` (spec 10_state.md R23, R27), and how flags and
results of operations appear in a response (30_encoding.md R91 to R93). -/

namespace Sys2Proof.Machine

/-- Set `romLoaded`, the effect of a successful `loadROM` and of nothing else (R23). -/
def State.markLoaded (s : State) : State := { s with romLoaded := true }

/-- Store `textMode`, the effect of `setTextMode` and of nothing else (R27). -/
def State.storeTextMode (s : State) (mode : Bool) : State := { s with textMode := mode }

/-- A flag as a payload byte, 0x00 or 0x01 (R94). -/
def flagByte (b : Bool) : Byte := if b then 0x01 else 0x00

/-- `true` and `false` as VALUE (R93). -/
def boolValue (b : Bool) : Word := if b then 0x0001 else 0x0000

/-- The result of POINT, the integer -1 or 0 (R157). -/
def pointResult (on : Bool) : Int := if on then -1 else 0

/-- An integer result as VALUE, in 16-bit two's complement (R93). -/
def intValue (n : Int) : Word := BitVec.ofInt 16 n

/-- A byte result as VALUE, zero-extended (R93). -/
def byteValue (b : Byte) : Word := b.setWidth 16

/-- The code of a failure (R92, R210). -/
def Failure.code : Failure → Byte
  | .invalidROMSize => 0x01
  | .programTargetsROM => 0x02
  | .programTooLarge => 0x03
  | .illegalCommand => 0xFF

/-- The code of a status (R92). -/
def Status.code : Status → Byte
  | .ok => 0x00
  | .failed f => f.code

/-- The response word RW = (STATUS, 0x00, VALUE) (R91). -/
def Response.word (r : Response) : ResponseWord := r.status.code ++ (0 : Byte) ++ r.value

/-- The response of an operation that completed (R17, R92). -/
def Response.okay (value : Word) (payload : List Byte) : Response := ⟨.ok, value, payload⟩

/-- The response of a failure: VALUE 0 and no payload (R92, R217). -/
def Response.failure (f : Failure) : Response := ⟨.failed f, 0, []⟩

end Sys2Proof.Machine
end

