-- ==== Sys2Proof/Machine/Operands.lean ====
section
/-! DEFINITION. How operands are read and results formed from them, as functions of values alone: address
and value reduction (spec 20_memory.md R51 to R53), the packing functions of the pixel operations
(41_pixel_ops.md R150 to R154), text-cell addressing (R71), and the glyph table (43_glyph_renderer.md
R190 to R194, R198). -/

namespace Sys2Proof.Machine

/-! ### Reduction and region decode -/

/-- The address used: `address mod 65536` with the floor remainder (R51). -/
def reduceAddr (address : Int) : Nat := (address % (Config.totalSize : Int)).toNat

/-- The byte a value operand stands for: `value mod 256` (R52). -/
def reduceByte (value : Int) : Byte := BitVec.ofInt 8 value

/-- The word a value operand stands for: `value mod 65536` (R52). -/
def reduceWord (value : Int) : Word := BitVec.ofInt 16 value

/-- The three regions of the address map (R53, R58). -/
inductive Region where
  | ram
  | video
  | romProtected
  deriving DecidableEq, Repr

/-- The region of a reduced address, "by these comparisons and no others" (R53). -/
def region (a : Nat) : Region :=
  if Config.ramBase ≤ a then .ram
  else if Config.videoStart ≤ a ∧ a ≤ Config.videoEnd then .video
  else .romProtected

/-! ### Words and bytes -/

/-- The low byte of a word, `w mod 256` (R73). -/
def lowByte (w : Word) : Byte := w.extractLsb' 0 8

/-- The high byte of a word, `w div 256` (R73). -/
def highByte (w : Word) : Byte := w.extractLsb' 8 8

/-- The word `hi * 256 + lo` (R124). -/
def joinBytes (hi lo : Byte) : Word := hi ++ lo

/-- The four bytes of a 32-bit integer, little-endian (R94). -/
def littleEndian32 (n : Nat) : List Byte :=
  [BitVec.ofNat 8 n, BitVec.ofNat 8 (n / 256), BitVec.ofNat 8 (n / 65536),
   BitVec.ofNat 8 (n / 16777216)]

/-! ### Canvas and text addressing -/

/-- The coordinate pair lies on the canvas (R150). -/
def inBounds (x y : Int) : Bool := decide (0 ≤ x ∧ x ≤ 127 ∧ 0 ≤ y ∧ y ≤ 47)

/-- The address of the block byte of a canvas coordinate (R70, R151). -/
def blockAddr (x y : Int) : Int := (Config.videoStart : Int) + (y / 3) * 64 + x / 2

/-- The pattern bit of a canvas coordinate, `5 - (2 * sy + sx)` (R152). -/
def bitIndex (x y : Int) : Nat := (5 - (2 * (y % 3) + x % 2)).toNat

/-- The mask of that bit (R152). -/
def bitMask (x y : Int) : Pattern := (1 : Pattern) <<< bitIndex x y

/-- The address of a text cell, for any integers `row` and `col` (R71, R170). -/
def cellAddr (row col : Int) : Int := (Config.videoStart : Int) + row * 64 + col

/-! ### Graphics codes -/

/-- The byte is a graphics code, 128 to 191 (R153). -/
def isGraphics (b : Byte) : Bool := decide (Config.gfxBase ≤ b.toNat ∧ b.toNat ≤ Config.gfxLast)

/-- The pattern of a graphics code, `b - 128` (R153). -/
def pattern (b : Byte) : Pattern := (b - 128).setWidth 6

/-- The graphics code of a pattern, `128 + p` (R154). -/
def pack (p : Pattern) : Byte := 128 + p.setWidth 8

/-- The pattern a SET starts from: a graphics code's own, else all-zero ("replaced, not merged", R155). -/
def basePattern (b : Byte) : Pattern := if isGraphics b then pattern b else 0

/-- The byte shows the pixel `(x, y)` as on (R157, R158). -/
def pixelOn (b : Byte) (x y : Int) : Bool := isGraphics b && (pattern b &&& bitMask x y) != 0

/-! ### Glyphs -/

/-- The glyph of a pattern: each sub-pixel a 4 by 4 square of render pixels (R193). -/
def graphicsGlyph (p : Pattern) : Glyph := fun j k =>
  p.getLsbD (5 - (2 * (j.val / 4) + k.val / 4))

/-- The table `charRom`: `FONT` below 128, the graphics glyphs from 128 to 191, and those again from 192
on, `charRom[c] = charRom[c - 64]` (R190, R192 to R194). -/
def charRom (code : Byte) : Glyph :=
  if h : code.toNat < 128 then Config.font ⟨code.toNat, h⟩
  else if code.toNat < 192 then graphicsGlyph (pattern code)
  else graphicsGlyph (pattern (code - 64))

/-- Eight pixels in one byte, pixel `k` at bit `7 - k`: bit 7 is the leftmost (R191). -/
def packLine (pixel : Nat → Bool) : Byte :=
  BitVec.ofNat 8 ((List.range 8).map fun k => (pixel k).toNat <<< (7 - k)).sum

/-- Line `j` of a glyph as one byte (R191). -/
def glyphLine (g : Glyph) (j : Nat) : Byte := packLine fun k => g (Fin.ofNat 12 j) (Fin.ofNat 8 k)

/-- The colour in which a display shows a frame bit (R29, R198). -/
def displayColour (bit : Bool) : BitVec 24 := if bit then Config.fgColor else Config.bgColor

end Sys2Proof.Machine
end

