-- ==== Sys2Proof/Machine/Ops.lean ====
section
/-! DEFINITION. The shared operations: the byte arrays, the two byte paths (spec 20_memory.md R54, R55), runs
of byte writes, the views of the video window, answering a command, failing one (60_exceptions.md R217),
and taking the next command from the caller. -/

namespace Sys2Proof.Machine

/-! ### Byte arrays -/

/-- What an index that is not listed holds: the reset content (10_state.md R35). -/
def Memory.unlisted : Byte := 0x00

/-- The byte at an index. -/
def Memory.read : Memory → Nat → Byte
  | [], _ => Memory.unlisted
  | (k, v) :: m, i => if k = i then v else Memory.read m i

/-- Put a cell before the first cell with a larger or equal index. -/
def Memory.insert : Memory → Nat → Byte → Memory
  | [], i, v => [(i, v)]
  | (k, w) :: m, i, v => if k < i then (k, w) :: Memory.insert m i v else (i, v) :: (k, w) :: m

/-- Forget what is listed at an index. -/
def Memory.erase (m : Memory) (i : Nat) : Memory := m.filter fun c => c.1 != i

/-- Write one byte, keeping the canonical form: the value an unlisted index holds is not listed. -/
def Memory.write (m : Memory) (i : Nat) (v : Byte) : Memory :=
  if v = Memory.unlisted then m.erase i else (m.erase i).insert i v

/-- The array whose bytes from index `i` upward are `data`. -/
def Memory.ofBytesFrom (i : Nat) : List Byte → Memory
  | [] => []
  | b :: bs =>
    if b = Memory.unlisted then Memory.ofBytesFrom (i + 1) bs
    else (i, b) :: Memory.ofBytesFrom (i + 1) bs

/-- The array whose bytes are `data` (the copy of `loadROM`, R121). -/
def Memory.ofBytes (data : List Byte) : Memory := Memory.ofBytesFrom 0 data

/-- The zero-filled array (R127). -/
def Memory.zeroFilled : Memory := []

/-- The canonical form: indices strictly rising, no cell equal to what an unlisted index holds. -/
def Memory.wf : Memory → Bool
  | [] => true
  | (k, v) :: m => v != Memory.unlisted && m.all (fun c => k < c.1) && Memory.wf m

/-- Every listed index lies inside an array of `size` bytes (10_state.md R25). -/
def Memory.within (size : Nat) (m : Memory) : Bool := m.all fun c => c.1 < size

/-! ### The byte paths -/

/-- `ReadByte(address)`, the read multiplexer (R54). -/
def State.readByte (s : State) (address : Int) : Byte :=
  let a := reduceAddr address
  if a < Config.ramBase then s.rom.read a else s.ram.read (a - Config.ramBase)

/-- `WriteByte(address, value)` for a value that is a byte: in the RAM region a byte of `ram`, in the video
window a byte of `rom`, in protected ROM nothing (R55, R56). -/
def State.storeByte (s : State) (address : Int) (v : Byte) : State :=
  let a := reduceAddr address
  { s with
    rom := if region a = .video then s.rom.write a v else s.rom
    ram := if region a = .ram then s.ram.write (a - Config.ramBase) v else s.ram }

/-- `WriteByte(address, value)` for any integer value (R52, R55). -/
def State.writeByte (s : State) (address value : Int) : State :=
  s.storeByte address (reduceByte value)

/-- `WriteByte` of each byte at `base`, `base + 1`, ... in ascending order (R126, R170; D19). -/
def State.storeBytes (s : State) (base : Int) : List Byte → State
  | [] => s
  | b :: bs => (s.storeByte base b).storeBytes (base + 1) bs

/-- `WriteByte` of the byte `v` at `base`, `base + 1`, ..., `base + n - 1` in ascending order (R171; D19). -/
def State.fillBytes (s : State) (base : Int) (v : Byte) : Nat → State
  | 0 => s
  | n + 1 => (s.fillBytes base v n).storeByte (base + (n : Int)) v

/-- `MemRead(addr, 2)` (R60, R73). -/
def State.readWord (s : State) (address : Int) : Word :=
  joinBytes (s.readByte (address + 1)) (s.readByte address)

/-- `MemWrite(addr, 2, w)`: low byte first (R60, R73; D19). -/
def State.storeWord (s : State) (address : Int) (w : Word) : State :=
  (s.storeByte address (lowByte w)).storeByte (address + 1) (highByte w)

/-! ### Whole arrays -/

/-- Replace `rom` by index, past the write protection (R57, R121). -/
def State.installROM (s : State) (data : List Byte) : State :=
  { s with rom := Memory.ofBytes data }

/-- Zero-fill `ram` by index (R57, R127). -/
def State.zeroRAM (s : State) : State := { s with ram := Memory.zeroFilled }

/-! ### Views of the memory and of the video window -/

/-- The composite view of all 65536 bytes (R128). -/
def State.memoryView (s : State) : List Byte :=
  (List.range Config.totalSize).map fun (k : Nat) => s.readByte (k : Int)

/-- The byte of the text cell at row `r`, column `c` (R71, R172). -/
def State.cell (s : State) (r c : Nat) : Byte := s.readByte (cellAddr (r : Int) (c : Int))

/-- The screen snapshot, row-major: byte `r*64 + c` is cell (r, c) (R94, R172). -/
def State.screen (s : State) : List Byte :=
  (List.range Config.videoSize).map fun (n : Nat) => s.cell (n / Config.columns) (n % Config.columns)

/-- The pixel `(x, y)` of the canvas is on (R158). -/
def State.pixel (s : State) (x y : Nat) : Bool :=
  pixelOn (s.readByte (blockAddr (x : Int) (y : Int))) (x : Int) (y : Int)

/-- The graphics snapshot: byte `y*128 + x` is 0x01 or 0x00 (R94, R158). -/
def State.canvas (s : State) : List Byte :=
  (List.range (Config.graphicsHeight * Config.graphicsWidth)).map fun (n : Nat) =>
    flagByte (s.pixel (n % Config.graphicsWidth) (n / Config.graphicsWidth))

/-- The render pixel `frame[py][px]` (R197). -/
def State.framePixel (s : State) (py px : Nat) : Bool :=
  charRom (s.cell (py / Config.charHeight) (px / Config.charWidth))
    (Fin.ofNat 12 py) (Fin.ofNat 8 px)

/-- The frame, eight pixels to a byte: byte `py*64 + c` holds pixels `8c` to `8c+7` of line `py`
(R94, R197). -/
def State.frame (s : State) : List Byte :=
  (List.range (Config.rows * Config.charHeight * Config.columns)).map fun (n : Nat) =>
    packLine fun k =>
      s.framePixel (n / Config.columns) (Config.charWidth * (n % Config.columns) + k)

/-! ### Answering and failing -/

/-- Give the caller a response: one for each command, when it has completed (R91). -/
def State.respond (s : State) (r : Response) : State := { s with responses := s.responses ++ [r] }

/-- `return`: the operation ends with status OK (R17). -/
def State.answer (s : State) (value : Word) (payload : List Byte) :
    Host.Outcome State Fault Refusal :=
  .next (s.respond (Response.okay value payload))

/-- `raise`: the operation ends with a failure; the block's state is as it was before the operation began
and the response carries the failure (R17, R217 to R219). -/
def State.raise (s : State) (f : Failure) : Host.Outcome State Fault Refusal :=
  .next (s.respond (Response.failure f))

/-! ### Taking a command -/

/-- The caller's next command, and the state in which it is executed (20_memory.md R65). -/
def State.fetch (s : State) : Option (Command × State) :=
  match s.commands with
  | [] => none
  | cmd :: rest => some (cmd, { s with commands := rest })

end Sys2Proof.Machine
end

