-- ==== Sys2Proof/Machine/MemoryBus.lean ====
section
/-! DEFINITION. The meanings of the nine MemoryBus operations (spec 40_memory_bus_ops.md R120 to R128). -/

namespace Sys2Proof.Machine

/-- R120: the sizes as three 32-bit little-endian integers and the flag (R34, R94). -/
def execGetStats (s : State) : Host.Outcome State Fault Refusal :=
  s.answer 0 (littleEndian32 Config.romSize ++ littleEndian32 Config.ramSize
    ++ littleEndian32 Config.totalSize ++ [flagByte s.romLoaded])

/-- R121: a full image is copied, a short one padded with zeros, any other length fails. -/
def execLoadROM (data : List Byte) (s : State) : Host.Outcome State Fault Refusal :=
  if data.length = Config.romImageFull then ((s.installROM data).markLoaded).answer 0 []
  else if data.length = Config.romImageShort then
    ((s.installROM (data ++ List.replicate (Config.romSize - Config.romImageShort) 0x00)).markLoaded).answer
      0 []
  else s.raise .invalidROMSize

/-- R122 -/
def execReadByte (address : Int) (s : State) : Host.Outcome State Fault Refusal :=
  s.answer (byteValue (s.readByte address)) []

/-- R123 -/
def execWriteByte (address value : Int) (s : State) : Host.Outcome State Fault Refusal :=
  (s.writeByte address value).answer 0 []

/-- R124 -/
def execReadWord (address : Int) (s : State) : Host.Outcome State Fault Refusal :=
  s.answer (s.readWord address) []

/-- R125 -/
def execWriteWord (address value : Int) (s : State) : Host.Outcome State Fault Refusal :=
  (s.storeWord address (reduceWord value)).answer 0 []

/-- R126: the three checks in the listed order, the first that applies deciding (R216); the end test is
the formula as written, for data of any length. -/
def execLoadProgram (data : List Byte) (address : Int) (s : State) :
    Host.Outcome State Fault Refusal :=
  let a := reduceAddr address
  if data.length = 0 then s.answer (BitVec.ofNat 16 a) []
  else if a < Config.ramBase then s.raise .programTargetsROM
  else if (a + data.length - 1) % Config.totalSize < a then s.raise .programTooLarge
  else (s.storeBytes (a : Int) data).answer (BitVec.ofNat 16 a) []

/-- R127 -/
def execClearRAM (s : State) : Host.Outcome State Fault Refusal := s.zeroRAM.answer 0 []

/-- R128 -/
def execGetMemoryView (s : State) : Host.Outcome State Fault Refusal := s.answer 0 s.memoryView

end Sys2Proof.Machine
end

