-- ==== Sys2Proof/Machine/Pixel.lean ====
section
/-! DEFINITION. The meanings of the pixel operations (spec 41_pixel_ops.md R155 to R158). -/

namespace Sys2Proof.Machine

/-- R155: an in-bounds SET always writes; a byte that is no graphics code is replaced, not merged. -/
def execSetPixel (x y : Int) (s : State) : Host.Outcome State Fault Refusal :=
  if inBounds x y then
    let addr := blockAddr x y
    (s.storeByte addr (pack (basePattern (s.readByte addr) ||| bitMask x y))).answer
      (boolValue true) []
  else s.answer (boolValue false) []

/-- R156: a RESET writes only where the byte is a graphics code. -/
def execResetPixel (x y : Int) (s : State) : Host.Outcome State Fault Refusal :=
  if inBounds x y then
    let addr := blockAddr x y
    let b := s.readByte addr
    if isGraphics b then
      (s.storeByte addr (pack (pattern b &&& ~~~ bitMask x y))).answer (boolValue true) []
    else s.answer (boolValue false) []
  else s.answer (boolValue false) []

/-- R157: -1 for on, 0 for off, out of bounds or no graphics code. -/
def execPointPixel (x y : Int) (s : State) : Host.Outcome State Fault Refusal :=
  if inBounds x y then
    s.answer (intValue (pointResult (pixelOn (s.readByte (blockAddr x y)) x y))) []
  else s.answer (intValue (pointResult false)) []

/-- R158 -/
def execGetGraphicsSnapshot (s : State) : Host.Outcome State Fault Refusal := s.answer 0 s.canvas

end Sys2Proof.Machine
end

