-- ==== Sys2Proof/Machine/Renderer.lean ====
section
/-! DEFINITION. The meanings of the two renderer operations (spec 43_glyph_renderer.md R196, R197). -/

namespace Sys2Proof.Machine

/-- R196: the twelve lines of the glyph, top line first. -/
def execGetGlyph (code : Byte) (s : State) : Host.Outcome State Fault Refusal :=
  s.answer 0 ((List.range Config.charHeight).map (glyphLine (charRom code)))

/-- R197 -/
def execRenderFrame (s : State) : Host.Outcome State Fault Refusal := s.answer 0 s.frame

end Sys2Proof.Machine
end

