-- ==== Sys2Proof/Machine/Text.lean ====
section
/-! DEFINITION. The meanings of the text operations and of the two accessors of `textMode` (spec
42_text_ops.md R170 to R174). -/

namespace Sys2Proof.Machine

/-- R170: no clamping; each character goes through the byte write path. -/
def execWriteString (text : List Byte) (row col : Int) (s : State) :
    Host.Outcome State Fault Refusal :=
  (s.storeBytes (cellAddr row col) text).answer 0 []

/-- R171 -/
def execClearScreen (s : State) : Host.Outcome State Fault Refusal :=
  (s.fillBytes (Config.videoStart : Int) 0x20 Config.videoSize).answer 0 []

/-- R172 -/
def execGetScreenSnapshot (s : State) : Host.Outcome State Fault Refusal := s.answer 0 s.screen

/-- R173 -/
def execSetTextMode (mode : Bool) (s : State) : Host.Outcome State Fault Refusal :=
  (s.storeTextMode mode).answer 0 []

/-- R174 -/
def execGetTextMode (s : State) : Host.Outcome State Fault Refusal :=
  s.answer (boolValue s.textMode) []

end Sys2Proof.Machine
end

