-- ==== Sys2Proof/Machine/Dispatch.lean ====
section
/-! DEFINITION. The dispatch: one arm for each operation of the opcode map (spec 30_encoding.md R87). -/

namespace Sys2Proof.Machine

def exec (i : Instr) (s : State) : Host.Outcome State Fault Refusal :=
  match i with
  | .getStats => Sys2Proof.Machine.execGetStats s
  | .loadROM data => Sys2Proof.Machine.execLoadROM data s
  | .readByte address => Sys2Proof.Machine.execReadByte address s
  | .writeByte address value => Sys2Proof.Machine.execWriteByte address value s
  | .readWord address => Sys2Proof.Machine.execReadWord address s
  | .writeWord address value => Sys2Proof.Machine.execWriteWord address value s
  | .loadProgram data address => Sys2Proof.Machine.execLoadProgram data address s
  | .clearRAM => Sys2Proof.Machine.execClearRAM s
  | .getMemoryView => Sys2Proof.Machine.execGetMemoryView s
  | .setPixel x y => Sys2Proof.Machine.execSetPixel x y s
  | .resetPixel x y => Sys2Proof.Machine.execResetPixel x y s
  | .pointPixel x y => Sys2Proof.Machine.execPointPixel x y s
  | .writeString text row col => Sys2Proof.Machine.execWriteString text row col s
  | .clearScreen => Sys2Proof.Machine.execClearScreen s
  | .getScreenSnapshot => Sys2Proof.Machine.execGetScreenSnapshot s
  | .getGraphicsSnapshot => Sys2Proof.Machine.execGetGraphicsSnapshot s
  | .setTextMode mode => Sys2Proof.Machine.execSetTextMode mode s
  | .getTextMode => Sys2Proof.Machine.execGetTextMode s
  | .getGlyph code => Sys2Proof.Machine.execGetGlyph code s
  | .renderFrame => Sys2Proof.Machine.execRenderFrame s

end Sys2Proof.Machine
end

