-- ==== Sys2Proof/Machine/Step.lean ====
section
/-! DEFINITION. One step: the next command is taken, decoded and executed as one indivisible operation (spec
00_scope.md R6; 20_memory.md R64, R65; 30_encoding.md R88; 60_exceptions.md R214, R216). -/

namespace Sys2Proof.Machine

/-- One step. With no command waiting the block is idle and nothing happens (R221, R241; log entry 1); a
command that decodes to no operation fails as `IllegalCommand` (R214). -/
def step (s : State) : Host.Outcome State Fault Refusal :=
  match s.fetch with
  | none => .next s
  | some (cmd, s') =>
    match decode cmd with
    | .error _ => s'.raise .illegalCommand
    | .ok i => exec i s'

/-- The command whose bits are `w` becomes the next command the caller issues (log entry 3). -/
def State.withFetchWord (s : State) (nbits w : Nat) : State :=
  { s with commands := tableCommand nbits w :: s.commands }

end Sys2Proof.Machine
end

