-- ==== Sys2Proof/Safety.lean ====
section
/-! DEFINITION. The terms in which claims about the block are made: the invariant of the state (spec
10_state.md R25), what it means that a part of the state is unchanged, and the table of writers (10_state.md
R26). -/

namespace Sys2Proof.Machine

/-- The invariant: both arrays are in canonical form and keep their lengths (R25). -/
def State.wf (s : State) : Bool :=
  s.rom.wf && s.rom.within Config.romSize && s.ram.wf && s.ram.within Config.ramSize

/-- The block's mutable state (R20) is the same in both states. -/
def SameBlock (s t : State) : Prop :=
  t.rom = s.rom ∧ t.ram = s.ram ∧ t.romLoaded = s.romLoaded ∧ t.textMode = s.textMode

/-- `s` goes to `t` by answering `r`, the caller's other commands still waiting. -/
def Answered (s t : State) (r : Response) : Prop :=
  t.responses = s.responses ++ [r] ∧ t.commands = s.commands

/-- Neither flag changes ("neither flag", the clause of every operation but two). -/
def SameFlags (s t : State) : Prop := t.romLoaded = s.romLoaded ∧ t.textMode = s.textMode

/-- A byte write to this address takes effect: it is not in 0x0000 to 0x3BFF (R55). -/
def writable (address : Int) : Bool := decide (Config.videoStart ≤ reduceAddr address)

/-- The components of the table of writers (R26). -/
inductive Component where
  | protectedRom
  | videoWindow
  | ram
  | romLoaded
  | textMode
  deriving DecidableEq, Repr

/-- The component has the same contents in both states. -/
def Component.Unchanged (s t : State) : Component → Prop
  | .protectedRom => ∀ a : Nat, a < 0x3C00 → t.readByte a = s.readByte a
  | .videoWindow => ∀ a : Nat, 0x3C00 ≤ a → a ≤ 0x3FFF → t.readByte a = s.readByte a
  | .ram => ∀ a : Nat, 0x4000 ≤ a → a ≤ 0xFFFF → t.readByte a = s.readByte a
  | .romLoaded => t.romLoaded = s.romLoaded
  | .textMode => t.textMode = s.textMode

/-- The table of R26: the components each operation may change. The conditions the table adds (an
address in the window, a success) are stated operation by operation. -/
def mayChange : Instr → List Component
  | .getStats => []
  | .loadROM _ => [.protectedRom, .videoWindow, .romLoaded]
  | .readByte _ => []
  | .writeByte _ _ => [.videoWindow, .ram]
  | .readWord _ => []
  | .writeWord _ _ => [.videoWindow, .ram]
  | .loadProgram _ _ => [.ram]
  | .clearRAM => [.ram]
  | .getMemoryView => []
  | .setPixel _ _ => [.videoWindow]
  | .resetPixel _ _ => [.videoWindow]
  | .pointPixel _ _ => []
  | .writeString _ _ _ => [.videoWindow, .ram]
  | .clearScreen => [.videoWindow]
  | .getScreenSnapshot => []
  | .getGraphicsSnapshot => []
  | .setTextMode _ => [.textMode]
  | .getTextMode => []
  | .getGlyph _ => []
  | .renderFrame => []

end Sys2Proof.Machine
end

