-- ==== Sys2Proof/Certificates/Slice0/Obligations.lean ====
section
/-! DEFINITION. The statements for the provers. `Answered s t r` says that `t` has the response `r` after
those of `s` and the same waiting commands; `SameBlock s t` that `rom`, `ram` (so every byte), `romLoaded`
and `textMode` are unchanged; `SameFlags s t` that the two flags are. Where a statement gives command words,
VALUEs or payload layouts, those are the spec's own decisions (92_eei_decisions.md D6 to D11), as the rules
state them. -/

open Sys2Proof Sys2Proof.Machine

/-! ## Reset, the step and the invariant -/

/-- R35: after reset every byte of `rom` and `ram` is 0x00, `romLoaded` is false, `textMode` is true. -/
def Obligations.ResetIsZeroFilled : Prop :=
  (∀ a : Int, State.reset.readByte a = 0) ∧
    State.reset.romLoaded = false ∧ State.reset.textMode = true

/-- R25 with the canonical form of the model's byte arrays (log entry 6): the invariant holds at reset. -/
def Obligations.ResetMeetsTheInvariant : Prop := State.reset.wf = true

/-- R25 with the canonical form of the model's byte arrays (log entry 6): no step changes the length of an
array, and every step keeps the arrays in canonical form, from every state that has it. -/
def Obligations.StepKeepsTheInvariant : Prop :=
  ∀ s t : State, s.wf = true → step s = .next t → t.wf = true

/-- R6, R65, R88: the step runs the operation that the next command decodes to, in the state in which that
command has been taken from the caller's queue (log entry 1). -/
def Obligations.StepRunsTheDecodedCommand : Prop :=
  ∀ (s : State) (cmd : Command) (rest : List Command) (i : Instr),
    s.commands = cmd :: rest → decode cmd = .ok i →
      step s = exec i { s with commands := rest }

/-- R214, R216, R217 (decision D8): a command that decodes to no operation changes no state and answers
`IllegalCommand`, VALUE 0, no payload, response word 0xFF000000. -/
def Obligations.IllegalCommandChangesNothing : Prop :=
  ∀ (s : State) (cmd : Command) (rest : List Command) (e : Illegal),
    s.commands = cmd :: rest → decode cmd = .error e →
      ∃ (t : State) (r : Response), step s = .next t ∧ SameBlock s t ∧ t.commands = rest ∧
        t.responses = s.responses ++ [r] ∧ r = ⟨.failed .illegalCommand, 0, []⟩ ∧
        r.word = 0xFF000000

/-- The model's choice (log entry 1), after R221, "Nothing happens in the block except in response to an
operation": with no command waiting a step changes nothing. -/
def Obligations.IdleStepChangesNothing : Prop :=
  ∀ s : State, s.commands = [] → step s = .next s

/-- R91 and R250: every command, legal or not, in every state, is completed in one step with exactly one
response. -/
def Obligations.OneResponseForEachCommand : Prop :=
  ∀ (s : State) (cmd : Command) (rest : List Command), s.commands = cmd :: rest →
    ∃ (t : State) (r : Response), step s = .next t ∧ t.commands = rest ∧
      t.responses = s.responses ++ [r]

/-- R250: a run never halts or gets stuck; after as many steps as commands were waiting, all are answered,
one response each, in order after the earlier ones. -/
def Obligations.RunAnswersEveryCommand : Prop :=
  ∀ s : State, ∃ (t : State) (rs : List Response),
    core.run s.commands.length s = .next t ∧ t.commands = [] ∧
      t.responses = s.responses ++ rs ∧ rs.length = s.commands.length

/-! ## Failures -/

/-- R217: a response with a status other than OK comes with the state exactly as it was, VALUE 0 and no
payload, whatever the command. -/
def Obligations.FailureLeavesTheBlockUnchanged : Prop :=
  ∀ (s t : State) (cmd : Command) (rest : List Command) (r : Response) (f : Failure),
    s.commands = cmd :: rest → step s = .next t → t.responses = s.responses ++ [r] →
      r.status = .failed f →
        SameBlock s t ∧ t.commands = rest ∧ r.value = 0 ∧ r.payload = []

/-- R219 (decision D17): a failure is not sticky; the same command issued again fails again, with the same
response and the block still unchanged. -/
def Obligations.FailureRepeats : Prop :=
  ∀ (s t : State) (cmd : Command) (rest : List Command) (r : Response) (f : Failure),
    s.commands = cmd :: cmd :: rest → step s = .next t → t.responses = s.responses ++ [r] →
      r.status = .failed f →
        ∃ u : State, step t = .next u ∧ SameBlock s u ∧ u.commands = rest ∧
          u.responses = s.responses ++ [r, r]

/-- R210: once decoded, no operation but `loadROM` and `loadProgram` fails, and those only with their own
failures. -/
def Obligations.OnlyLoadsFail : Prop :=
  ∀ (i : Instr) (s t : State) (r : Response) (f : Failure),
    exec i s = .next t → t.responses = s.responses ++ [r] → r.status = .failed f →
      ((∃ data, i = .loadROM data) ∧ f = .invalidROMSize) ∨
      ((∃ data address, i = .loadProgram data address) ∧
        (f = .programTargetsROM ∨ f = .programTooLarge))

/-! ## Encoding -/

/-- R81 to R89 (decisions D6, D7, D8): worked words of 30_encoding.md section 6 and 95_test_vectors.md
section 3.1, one or more of each format, and an illegal one for each reason. -/
def Obligations.WorkedWordsDecode : Prop :=
  decode ⟨0x0300420000000000, []⟩ = .ok (.readByte 0x4200) ∧
  decode ⟨0x04003C0001410000, []⟩ = .ok (.writeByte 0x3C00 0x0141) ∧
  decode ⟨0x0700420000000003, [0x3E, 0x42, 0x76]⟩ = .ok (.loadProgram [0x3E, 0x42, 0x76] 0x4200) ∧
  decode ⟨0x0200000000000000, []⟩ = .ok (.loadROM []) ∧
  decode ⟨0x120080007FFF0000, []⟩ = .ok (.pointPixel (-32768) 32767) ∧
  decode ⟨0x13000000FFFF0003, [0x41, 0x42, 0x43]⟩ = .ok (.writeString [0x41, 0x42, 0x43] 0 (-1)) ∧
  decode ⟨0x1700000000000001, []⟩ = .ok (.setTextMode true) ∧
  decode ⟨0x19000000000000BF, []⟩ = .ok (.getGlyph 0xBF) ∧
  decode ⟨0x1A00000000000000, []⟩ = .ok .renderFrame ∧
  decode ⟨0x0000000000000000, []⟩ = .error .unknownOpcode ∧
  decode ⟨0x0301420000000000, []⟩ = .error .reservedField ∧
  decode ⟨0x1700000000000002, []⟩ = .error .reservedField ∧
  decode ⟨0x0700420000000003, [0x3E, 0x42]⟩ = .error .payloadLength

/-- R81 to R88 (decisions D6, D7, D8): the command of every operation the port can carry decodes back to
it, with every operand. -/
def Obligations.DecodeOfEncodeIsIdentity : Prop :=
  ∀ i : Instr, wellFormed i = true → decode (encode i) = .ok i

/-- R81 to R89 (decisions D6, D7, D8): the other direction: a legal command is exactly the encoding of the
operation it decodes to, whose operands fit the port; no bit of a legal command is dropped. -/
def Obligations.EncodeOfDecodeIsIdentity : Prop :=
  ∀ (cmd : Command) (i : Instr), decode cmd = .ok i → wellFormed i = true ∧ encode i = cmd

/-- R82, R86, R88, R89 (decisions D6, D8): a word of an assigned OP with RSV zero is legal exactly when the
fields its format leaves unused are zero and the payload has the length the format asks for. -/
def Obligations.LegalWordsOfEachFormat : Prop :=
  ∀ (op : Opcode) (a b c : Word) (p : List Byte),
    (∃ i, decode ⟨op.code ++ (0x00 : Byte) ++ a ++ b ++ c, p⟩ = .ok i) ↔
      match op.format with
      | .N => a = 0 ∧ b = 0 ∧ c = 0 ∧ p = []
      | .A => b = 0 ∧ c = 0 ∧ p = []
      | .AV => c = 0 ∧ p = []
      | .XY => c = 0 ∧ p = []
      | .L => a = 0 ∧ b = 0 ∧ p.length = c.toNat
      | .AL => b = 0 ∧ p.length = c.toNat
      | .RCL => p.length = c.toNat
      | .M => a = 0 ∧ b = 0 ∧ c.toNat ≤ 1 ∧ p = []
      | .G => a = 0 ∧ b = 0 ∧ c.toNat ≤ 255 ∧ p = []

/-- R89 (decision D8): a word whose OP is unassigned (0x00, 0x0A to 0x0F, 0x1B to 0xFF) or whose RSV byte is
not zero is illegal, whatever its other fields and its payload. -/
def Obligations.ReservedWordsAreIllegal : Prop :=
  ∀ (op rsv : Byte) (a b c : Word) (p : List Byte),
    (op = 0 ∨ (0x0A ≤ op.toNat ∧ op.toNat ≤ 0x0F) ∨ 0x1B ≤ op.toNat ∨ rsv ≠ 0) →
      ∃ e, decode ⟨op ++ rsv ++ a ++ b ++ c, p⟩ = .error e

/-- R90 (decision D6): the size of a legal command follows from OP and C alone. -/
def Obligations.CommandSizeFollowsFromTheWord : Prop :=
  ∀ (cmd : Command) (i : Instr), decode cmd = .ok i →
    commandSize cmd.word = 8 + cmd.payload.length

/-- R83, R84: the port's truncation of an address or data operand is the reduction of the operation: the
encoded form of an operand of any width does what the operation does with the operand itself. -/
def Obligations.PortTruncationIsReduction : Prop :=
  ∀ (address value : Int) (data : List Byte) (s : State),
    (∃ i, decode (encode (.readByte address)) = .ok i ∧ exec i s = exec (.readByte address) s) ∧
    (∃ i, decode (encode (.writeByte address value)) = .ok i ∧
      exec i s = exec (.writeByte address value) s) ∧
    (∃ i, decode (encode (.readWord address)) = .ok i ∧ exec i s = exec (.readWord address) s) ∧
    (∃ i, decode (encode (.writeWord address value)) = .ok i ∧
      exec i s = exec (.writeWord address value) s) ∧
    (data.length ≤ 65535 → ∃ i, decode (encode (.loadProgram data address)) = .ok i ∧
      exec i s = exec (.loadProgram data address) s)

/-- R91, R92 (decision D9): the fields of a response word and the five status codes. -/
def Obligations.ResponseWordFields : Prop :=
  (∀ r : Response, r.word.extractLsb' 24 8 = r.status.code ∧ r.word.extractLsb' 16 8 = 0 ∧
      r.word.extractLsb' 0 16 = r.value) ∧
    Status.code .ok = 0x00 ∧ Status.code (.failed .invalidROMSize) = 0x01 ∧
    Status.code (.failed .programTargetsROM) = 0x02 ∧
    Status.code (.failed .programTooLarge) = 0x03 ∧
    Status.code (.failed .illegalCommand) = 0xFF

/-! ## Addresses and regions -/

/-- R53: the region of every 16-bit address by the comparisons; then the bit patterns that R53 gives beside them,
which the spec marks as its own inference, "[derived: from the constants of 00_scope.md rule R7]": those two clauses
are about addresses alone. -/
def Obligations.RegionDecode : Prop :=
  ∀ a : Word,
    (region a.toNat = .ram ↔ 0x4000 ≤ a.toNat) ∧
    (region a.toNat = .video ↔ 0x3C00 ≤ a.toNat ∧ a.toNat ≤ 0x3FFF) ∧
    (region a.toNat = .romProtected ↔ a.toNat ≤ 0x3BFF) ∧
    (0x4000 ≤ a.toNat ↔ a.extractLsb' 14 2 ≠ 0) ∧
    (0x3C00 ≤ a.toNat ∧ a.toNat ≤ 0x3FFF ↔ a.extractLsb' 10 6 = 0b001111)

/-- R51: in every operation that takes an address or forms one from a text position, the address is used
modulo 65536. -/
def Obligations.AddressesAreUsedModulo65536 : Prop :=
  ∀ (address value row col k : Int) (data : List Byte) (s : State),
    exec (.readByte (address + 65536 * k)) s = exec (.readByte address) s ∧
    exec (.writeByte (address + 65536 * k) value) s = exec (.writeByte address value) s ∧
    exec (.readWord (address + 65536 * k)) s = exec (.readWord address) s ∧
    exec (.writeWord (address + 65536 * k) value) s = exec (.writeWord address value) s ∧
    exec (.loadProgram data (address + 65536 * k)) s = exec (.loadProgram data address) s ∧
    exec (.writeString data (row + 1024 * k) col) s = exec (.writeString data row col) s ∧
    exec (.writeString data row (col + 65536 * k)) s = exec (.writeString data row col) s

/-! ## MemoryBus operations -/

/-- R120, R34, R94 (decision D15: the three sizes are the spec's reading): the stats payload, and nothing
changes. -/
def Obligations.GetStatsReportsSizesAndFlag : Prop :=
  decode ⟨0x0100000000000000, []⟩ = .ok .getStats ∧
  ∀ s : State, ∃ t : State, exec .getStats s = .next t ∧ SameBlock s t ∧
    Answered s t ⟨.ok, 0, [0x00, 0x40, 0x00, 0x00, 0x00, 0xC0, 0x00, 0x00, 0x00, 0x00, 0x01, 0x00,
      if s.romLoaded then 0x01 else 0x00]⟩

/-- R121, R211: an image of 16384 bytes replaces all of `rom`, one of 14336 bytes its first part with zeros
after it, and sets `romLoaded`; any other length fails and changes nothing. -/
def Obligations.LoadROMReplacesTheImage : Prop :=
  (∀ (n : Word) (data : List Byte), data.length = n.toNat →
    decode ⟨(0x02 : Byte) ++ (0 : Byte) ++ (0 : Word) ++ (0 : Word) ++ n, data⟩
      = .ok (.loadROM data)) ∧
  ∀ (data : List Byte) (s : State), ∃ t : State, exec (.loadROM data) s = .next t ∧
    if data.length = 16384 ∨ data.length = 14336 then
      Answered s t ⟨.ok, 0, []⟩ ∧ t.romLoaded = true ∧ t.textMode = s.textMode ∧
      t.ram = s.ram ∧
      ∀ a : Int, t.readByte a
        = if a % 65536 < 0x4000 then data.getD (a % 65536).toNat 0 else s.readByte a
    else SameBlock s t ∧ Answered s t ⟨.failed .invalidROMSize, 0, []⟩

/-- R122, R54: the read multiplexer; nothing changes. -/
def Obligations.ReadByteReturnsTheByte : Prop :=
  (∀ a : Word, decode ⟨(0x03 : Byte) ++ (0 : Byte) ++ a ++ (0 : Word) ++ (0 : Word), []⟩
      = .ok (.readByte a.toNat)) ∧
  ∀ (address : Int) (s : State), ∃ (t : State) (v : Word),
    exec (.readByte address) s = .next t ∧ SameBlock s t ∧ Answered s t ⟨.ok, v, []⟩ ∧
    v.toNat = (if address % 65536 < 0x4000 then s.rom.read (address % 65536).toNat
      else s.ram.read (address % 65536 - 0x4000).toNat).toNat

/-- R123, R55, R52: the byte at the written address becomes `value mod 256` where the address is 0x3C00 or
above; every other byte, the flags, and everything below 0x3C00 stay. -/
def Obligations.WriteByteWritesOneByte : Prop :=
  (∀ a v : Word, decode ⟨(0x04 : Byte) ++ (0 : Byte) ++ a ++ v ++ (0 : Word), []⟩
      = .ok (.writeByte a.toNat v.toNat)) ∧
  ∀ (address value : Int) (s : State), ∃ t : State,
    exec (.writeByte address value) s = .next t ∧ Answered s t ⟨.ok, 0, []⟩ ∧ SameFlags s t ∧
    ∀ b : Int, ((t.readByte b).toNat : Int)
      = if reduceAddr b = reduceAddr address ∧ 0x3C00 ≤ reduceAddr address then value % 256
        else (s.readByte b).toNat

/-- R56: a write to 0x0000 to 0x3BFF is dropped without a trace: the two arrays and the flags are the same,
and the response is that of any write. -/
def Obligations.ProtectedWriteIsSilent : Prop :=
  ∀ (address value : Int) (s : State), reduceAddr address ≤ 0x3BFF →
    ∃ t : State, exec (.writeByte address value) s = .next t ∧ SameBlock s t ∧
      Answered s t ⟨.ok, 0, []⟩

/-- R124, R59, R60: two byte reads, each address wrapped on its own, low byte first; nothing changes. -/
def Obligations.ReadWordJoinsTwoBytes : Prop :=
  (∀ a : Word, decode ⟨(0x05 : Byte) ++ (0 : Byte) ++ a ++ (0 : Word) ++ (0 : Word), []⟩
      = .ok (.readWord a.toNat)) ∧
  ∀ (address : Int) (s : State), ∃ (t : State) (v : Word),
    exec (.readWord address) s = .next t ∧ SameBlock s t ∧ Answered s t ⟨.ok, v, []⟩ ∧
    v.toNat = (s.readByte (reduceAddr (address + 1))).toNat * 256
      + (s.readByte (reduceAddr address)).toNat

/-- R125, R60: two byte writes, each decided on its own; every other byte and the flags stay. -/
def Obligations.WriteWordWritesTwoBytes : Prop :=
  (∀ a v : Word, decode ⟨(0x06 : Byte) ++ (0 : Byte) ++ a ++ v ++ (0 : Word), []⟩
      = .ok (.writeWord a.toNat v.toNat)) ∧
  ∀ (address value : Int) (s : State), ∃ t : State,
    exec (.writeWord address value) s = .next t ∧ Answered s t ⟨.ok, 0, []⟩ ∧ SameFlags s t ∧
    ∀ b : Int, ((t.readByte b).toNat : Int)
      = if reduceAddr b = reduceAddr address ∧ 0x3C00 ≤ reduceAddr address then value % 65536 % 256
        else if reduceAddr b = reduceAddr (address + 1) ∧ 0x3C00 ≤ reduceAddr (address + 1) then
          value % 65536 / 256
        else (s.readByte b).toNat

/-- R60, R62 with C2: where both bytes are writable, a word written is the word read back. -/
def Obligations.WordRoundTrip : Prop :=
  ∀ (address value : Int) (s : State),
    0x3C00 ≤ reduceAddr address → reduceAddr address ≤ 0xFFFE →
      ∃ (t u : State) (v : Word), exec (.writeWord address value) s = .next t ∧
        exec (.readWord address) t = .next u ∧ Answered t u ⟨.ok, v, []⟩ ∧
        (v.toNat : Int) = value % 65536

/-- R126, R212, R213 (decisions D12, D16): the three checks in order; a successful load puts the bytes at
`a`, `a + 1`, ... and answers `a`. The byte that ends up at an address `k` past `a` is `data[k]`, or the last
byte for that address where the data is longer than the address space (R126 case (e)). -/
def Obligations.LoadProgramChecksThenWrites : Prop :=
  (∀ (a n : Word) (data : List Byte), data.length = n.toNat →
    decode ⟨(0x07 : Byte) ++ (0 : Byte) ++ a ++ (0 : Word) ++ n, data⟩
      = .ok (.loadProgram data a.toNat)) ∧
  ∀ (data : List Byte) (address : Int) (s : State), ∃ t : State,
    exec (.loadProgram data address) s = .next t ∧
    if data.length = 0 then
      SameBlock s t ∧ Answered s t ⟨.ok, BitVec.ofNat 16 (reduceAddr address), []⟩
    else if reduceAddr address < 0x4000 then
      SameBlock s t ∧ Answered s t ⟨.failed .programTargetsROM, 0, []⟩
    else if (reduceAddr address + data.length - 1) % 65536 < reduceAddr address then
      SameBlock s t ∧ Answered s t ⟨.failed .programTooLarge, 0, []⟩
    else
      Answered s t ⟨.ok, BitVec.ofNat 16 (reduceAddr address), []⟩ ∧ SameFlags s t ∧
      ∀ (b : Int) (k : Nat), k = reduceAddr (b - reduceAddr address) →
        t.readByte b = if k < data.length ∧ 0x3C00 ≤ reduceAddr b
          then data.getD (k + 65536 * ((data.length - 1 - k) / 65536)) 0 else s.readByte b

/-- R126, 95_test_vectors.md section 5 item 8: a load of a length the port can carry never changes `rom`,
whatever its outcome. -/
def Obligations.LoadProgramKeepsROM : Prop :=
  ∀ (data : List Byte) (address : Int) (s t : State), data.length ≤ 65535 →
    exec (.loadProgram data address) s = .next t → t.rom = s.rom

/-- R127: `ram` is zero-filled; `rom`, so the screen, and the flags stay. -/
def Obligations.ClearRAMZeroesRAM : Prop :=
  decode ⟨0x0800000000000000, []⟩ = .ok .clearRAM ∧
  ∀ s : State, ∃ t : State, exec .clearRAM s = .next t ∧ Answered s t ⟨.ok, 0, []⟩ ∧
    SameFlags s t ∧ t.rom = s.rom ∧
    ∀ b : Int, t.readByte b = if 0x4000 ≤ reduceAddr b then 0 else s.readByte b

/-- R128: a payload of 65536 bytes, byte `k` being the byte at address `k`; nothing changes. -/
def Obligations.MemoryViewIsEveryByte : Prop :=
  decode ⟨0x0900000000000000, []⟩ = .ok .getMemoryView ∧
  ∀ s : State, ∃ (t : State) (p : List Byte), exec .getMemoryView s = .next t ∧ SameBlock s t ∧
    Answered s t ⟨.ok, 0, p⟩ ∧ p.length = 65536 ∧
    ∀ k : Nat, k < 65536 → p[k]? = some (s.readByte k)

/-- R63: writing the same value twice leaves the same block as writing it once. -/
def Obligations.WritingTwiceIsWritingOnce : Prop :=
  ∀ (address value : Int) (s : State), ∃ t u : State,
    exec (.writeByte address value) s = .next t ∧ exec (.writeByte address value) t = .next u ∧
      SameBlock t u

/-- R244: `loadProgram`, of a length the port can carry, and `loadROM` commute. -/
def Obligations.LoadsCommute : Prop :=
  ∀ (image program : List Byte) (address : Int) (s : State), program.length ≤ 65535 →
    ∃ t u t' u' : State,
      exec (.loadROM image) s = .next t ∧ exec (.loadProgram program address) t = .next u ∧
      exec (.loadProgram program address) s = .next t' ∧ exec (.loadROM image) t' = .next u' ∧
      SameBlock u u'

/-! ## Pixel operations -/

/-- R155, R150 to R154: out of bounds nothing changes and the answer is false; in bounds the block byte
becomes 128 plus its pattern (0 if it was no graphics code) with one bit on, and nothing else changes. -/
def Obligations.SetPixelSetsOneBit : Prop :=
  (∀ x y : Word, decode ⟨(0x10 : Byte) ++ (0 : Byte) ++ x ++ y ++ (0 : Word), []⟩
      = .ok (.setPixel x.toInt y.toInt)) ∧
  ∀ (x y : Int) (s : State), ∃ t : State, exec (.setPixel x y) s = .next t ∧
    if 0 ≤ x ∧ x ≤ 127 ∧ 0 ≤ y ∧ y ≤ 47 then
      Answered s t ⟨.ok, 1, []⟩ ∧ SameFlags s t ∧ t.ram = s.ram ∧
      ∀ b : Int, (t.readByte b).toNat
        = if reduceAddr b = reduceAddr (0x3C00 + y / 3 * 64 + x / 2) then
            128 + ((if 128 ≤ (s.readByte b).toNat ∧ (s.readByte b).toNat ≤ 191
              then (s.readByte b).toNat - 128 else 0) ||| 2 ^ (5 - (2 * (y % 3) + x % 2)).toNat)
          else (s.readByte b).toNat
    else SameBlock s t ∧ Answered s t ⟨.ok, 0, []⟩

/-- R156, R150 to R154: out of bounds, or on a byte that is no graphics code, nothing changes and the answer
is false; else one bit of the block's pattern goes off and nothing else changes. -/
def Obligations.ResetPixelClearsOneBit : Prop :=
  (∀ x y : Word, decode ⟨(0x11 : Byte) ++ (0 : Byte) ++ x ++ y ++ (0 : Word), []⟩
      = .ok (.resetPixel x.toInt y.toInt)) ∧
  ∀ (x y : Int) (s : State), ∃ t : State, exec (.resetPixel x y) s = .next t ∧
    if (0 ≤ x ∧ x ≤ 127 ∧ 0 ≤ y ∧ y ≤ 47) ∧
        128 ≤ (s.readByte (0x3C00 + y / 3 * 64 + x / 2)).toNat ∧
        (s.readByte (0x3C00 + y / 3 * 64 + x / 2)).toNat ≤ 191 then
      Answered s t ⟨.ok, 1, []⟩ ∧ SameFlags s t ∧ t.ram = s.ram ∧
      ∀ b : Int, (t.readByte b).toNat
        = if reduceAddr b = reduceAddr (0x3C00 + y / 3 * 64 + x / 2) then
            128 + (((s.readByte b).toNat - 128) &&& (63 - 2 ^ (5 - (2 * (y % 3) + x % 2)).toNat))
          else (s.readByte b).toNat
    else SameBlock s t ∧ Answered s t ⟨.ok, 0, []⟩

/-- R157, R150 to R153: the answer is -1 when the pixel is in bounds, the byte is a graphics code and the bit
is on, else 0; nothing changes. -/
def Obligations.PointPixelTestsOneBit : Prop :=
  (∀ x y : Word, decode ⟨(0x12 : Byte) ++ (0 : Byte) ++ x ++ y ++ (0 : Word), []⟩
      = .ok (.pointPixel x.toInt y.toInt)) ∧
  ∀ (x y : Int) (s : State), ∃ (t : State) (v : Word), exec (.pointPixel x y) s = .next t ∧
    SameBlock s t ∧ Answered s t ⟨.ok, v, []⟩ ∧
    v.toInt = if (0 ≤ x ∧ x ≤ 127 ∧ 0 ≤ y ∧ y ≤ 47) ∧
        128 ≤ (s.readByte (0x3C00 + y / 3 * 64 + x / 2)).toNat ∧
        (s.readByte (0x3C00 + y / 3 * 64 + x / 2)).toNat ≤ 191 ∧
        ((s.readByte (0x3C00 + y / 3 * 64 + x / 2)).toNat - 128).testBit
          (5 - (2 * (y % 3) + x % 2)).toNat = true
      then -1 else 0

/-- R158: a payload of 6144 bytes, byte `y*128 + x` being 1 exactly when the pixel is on; nothing changes. -/
def Obligations.GraphicsSnapshotIsTheCanvas : Prop :=
  decode ⟨0x1600000000000000, []⟩ = .ok .getGraphicsSnapshot ∧
  ∀ s : State, ∃ (t : State) (p : List Byte), exec .getGraphicsSnapshot s = .next t ∧
    SameBlock s t ∧ Answered s t ⟨.ok, 0, p⟩ ∧ p.length = 6144 ∧
    ∀ x y b : Nat, x < 128 → y < 48 →
      b = (s.readByte ((0x3C00 + y / 3 * 64 + x / 2 : Nat) : Int)).toNat →
      p[y * 128 + x]? = some (if 128 ≤ b ∧ b ≤ 191 ∧
        (b - 128).testBit (5 - (2 * (y % 3) + x % 2)) = true then 0x01 else 0x00)

/-- R159: from every state, an in-bounds SET makes POINT answer -1, and a following RESET answers true and
makes POINT answer 0. -/
def Obligations.SetPointResetPoint : Prop :=
  ∀ (x y : Int) (s : State), inBounds x y = true →
    ∃ t t' u u' : State, exec (.setPixel x y) s = .next t ∧
      exec (.pointPixel x y) t = .next t' ∧ Answered t t' ⟨.ok, 0xFFFF, []⟩ ∧
      exec (.resetPixel x y) t = .next u ∧ Answered t u ⟨.ok, 1, []⟩ ∧
      exec (.pointPixel x y) u = .next u' ∧ Answered u u' ⟨.ok, 0, []⟩

/-- R159, last sentence: a SET keeps every pixel of another block, and the other pixels of its own block if
that held a graphics code; a RESET keeps every pixel but its own. -/
def Obligations.OtherPixelsStay : Prop :=
  ∀ (x y x' y' : Int) (s t : State), inBounds x y = true → inBounds x' y' = true →
    (x', y') ≠ (x, y) →
      (exec (.setPixel x y) s = .next t →
        (blockAddr x' y' ≠ blockAddr x y ∨ isGraphics (s.readByte (blockAddr x y)) = true) →
          pixelOn (t.readByte (blockAddr x' y')) x' y'
            = pixelOn (s.readByte (blockAddr x' y')) x' y') ∧
      (exec (.resetPixel x y) s = .next t →
        pixelOn (t.readByte (blockAddr x' y')) x' y'
          = pixelOn (s.readByte (blockAddr x' y')) x' y')

/-- R70, R154, R160: a byte that a pixel operation changes lies in the video window and becomes a graphics
code. -/
def Obligations.PixelWritesAreGraphicsCodes : Prop :=
  ∀ (x y : Int) (s t : State) (b : Int),
    (exec (.setPixel x y) s = .next t ∨ exec (.resetPixel x y) s = .next t) →
      t.readByte b ≠ s.readByte b →
        0x3C00 ≤ reduceAddr b ∧ reduceAddr b ≤ 0x3FFF ∧
          128 ≤ (t.readByte b).toNat ∧ (t.readByte b).toNat ≤ 191

/-! ## Text operations -/

/-- R170, R71: character `i` goes through the byte write path at `0x3C00 + row*64 + col + i`, with no
clamping, for any operands; the byte that ends up `k` past the first address is `text[k]`, or the last one
for that address where the text is longer than the address space; every other byte and the flags stay. -/
def Obligations.WriteStringWritesCharacters : Prop :=
  (∀ (r c n : Word) (text : List Byte), text.length = n.toNat →
    decode ⟨(0x13 : Byte) ++ (0 : Byte) ++ r ++ c ++ n, text⟩
      = .ok (.writeString text r.toInt c.toInt)) ∧
  ∀ (text : List Byte) (row col : Int) (s : State), ∃ t : State,
    exec (.writeString text row col) s = .next t ∧ Answered s t ⟨.ok, 0, []⟩ ∧ SameFlags s t ∧
    ∀ (b : Int) (k : Nat), k = reduceAddr (b - (0x3C00 + row * 64 + col)) →
      t.readByte b = if k < text.length ∧ 0x3C00 ≤ reduceAddr b
        then text.getD (k + 65536 * ((text.length - 1 - k) / 65536)) 0 else s.readByte b

/-- R170, 95_test_vectors.md section 5 item 6: a string that stays on its row writes its own cells and
nothing else. -/
def Obligations.StringOnItsRowStaysOnScreen : Prop :=
  ∀ (text : List Byte) (row col : Nat) (s : State), row < 16 → col + text.length ≤ 64 →
    ∃ t : State, exec (.writeString text row col) s = .next t ∧ t.ram = s.ram ∧
      ∀ b : Nat, b < 65536 →
        t.readByte b = if 0x3C00 + row * 64 + col ≤ b ∧ b < 0x3C00 + row * 64 + col + text.length
          then text.getD (b - (0x3C00 + row * 64 + col)) 0 else s.readByte b

/-- R171: every byte of the video window becomes 0x20; nothing else changes. -/
def Obligations.ClearScreenWritesSpaces : Prop :=
  decode ⟨0x1400000000000000, []⟩ = .ok .clearScreen ∧
  ∀ s : State, ∃ t : State, exec .clearScreen s = .next t ∧ Answered s t ⟨.ok, 0, []⟩ ∧
    SameFlags s t ∧ t.ram = s.ram ∧
    ∀ b : Int, t.readByte b
      = if 0x3C00 ≤ reduceAddr b ∧ reduceAddr b ≤ 0x3FFF then 0x20 else s.readByte b

/-- R172, R71: a payload of 1024 bytes, byte `r*64 + c` being the byte of cell (r, c); nothing changes. -/
def Obligations.ScreenSnapshotIsTheGrid : Prop :=
  decode ⟨0x1500000000000000, []⟩ = .ok .getScreenSnapshot ∧
  ∀ s : State, ∃ (t : State) (p : List Byte), exec .getScreenSnapshot s = .next t ∧
    SameBlock s t ∧ Answered s t ⟨.ok, 0, p⟩ ∧ p.length = 1024 ∧
    ∀ r c : Nat, r < 16 → c < 64 →
      p[r * 64 + c]? = some (s.readByte ((0x3C00 + r * 64 + c : Nat) : Int))

/-- R173 (decision D14): the flag is stored, and no memory byte changes. -/
def Obligations.SetTextModeStoresTheFlag : Prop :=
  decode ⟨0x1700000000000000, []⟩ = .ok (.setTextMode false) ∧
  decode ⟨0x1700000000000001, []⟩ = .ok (.setTextMode true) ∧
  ∀ (mode : Bool) (s : State), ∃ t : State, exec (.setTextMode mode) s = .next t ∧
    Answered s t ⟨.ok, 0, []⟩ ∧ t.textMode = mode ∧ t.rom = s.rom ∧ t.ram = s.ram ∧
    t.romLoaded = s.romLoaded

/-- R174 (decision D14): the flag is read, and nothing changes. -/
def Obligations.GetTextModeReadsTheFlag : Prop :=
  decode ⟨0x1800000000000000, []⟩ = .ok .getTextMode ∧
  ∀ s : State, ∃ t : State, exec .getTextMode s = .next t ∧ SameBlock s t ∧
    Answered s t ⟨.ok, if s.textMode then 1 else 0, []⟩

/-- R175: for every operation but `getTextMode` the memory and the response after it are the same whether
`textMode` is true or false. -/
def Obligations.TextModeGatesNothing : Prop :=
  ∀ (i : Instr) (s : State) (m : Bool), i ≠ .getTextMode →
    ∃ t t' : State, exec i s = .next t ∧ exec i { s with textMode := m } = .next t' ∧
      t'.rom = t.rom ∧ t'.ram = t.ram ∧ t'.romLoaded = t.romLoaded ∧ t'.responses = t.responses

/-! ## The renderer -/

/-- R196, R190 to R194 (decisions D20, D22 to D25; FONT is a free value, log entry 4): twelve lines; pixel
`k` of line `j` is bit `7 - k`, from FONT below code 128 and from the pattern `code mod 64`, in squares of 4
by 4, from 128 on; nothing changes. -/
def Obligations.GetGlyphReadsTheTable : Prop :=
  (∀ code : Byte, decode ⟨(0x19 : Byte) ++ (0 : Byte) ++ (0 : Word) ++ (0 : Word) ++
      (0 : Byte) ++ code, []⟩ = .ok (.getGlyph code)) ∧
  ∀ (code : Byte) (s : State), ∃ (t : State) (p : List Byte),
    exec (.getGlyph code) s = .next t ∧ SameBlock s t ∧ Answered s t ⟨.ok, 0, p⟩ ∧
    p.length = 12 ∧
    ∀ (j : Fin 12) (k : Fin 8), (p.getD j 0).getLsbD (7 - k)
      = if h : code.toNat < 128 then Config.font ⟨code.toNat, h⟩ j k
        else (code.toNat % 64).testBit (5 - (2 * (j.val / 4) + k.val / 4))

/-- R197 (decisions D20, D22): a payload of 12288 bytes in which pixel (px, py) is pixel (px mod 8, py mod
12) of the glyph of the byte of cell (py div 12, px div 8); nothing changes. -/
def Obligations.RenderFrameShowsEachCell : Prop :=
  decode ⟨0x1A00000000000000, []⟩ = .ok .renderFrame ∧
  ∀ s : State, ∃ (t : State) (p : List Byte), exec .renderFrame s = .next t ∧ SameBlock s t ∧
    Answered s t ⟨.ok, 0, p⟩ ∧ p.length = 12288 ∧
    ∀ px py : Nat, px < 512 → py < 192 →
      (p.getD (py * 64 + px / 8) 0).getLsbD (7 - px % 8)
        = charRom (s.readByte ((0x3C00 + py / 12 * 64 + px / 8 : Nat) : Int))
            (Fin.ofNat 12 py) (Fin.ofNat 8 px)

/-- R197 (decisions D20 to D24): on a screen of graphics codes the frame is the graphics snapshot enlarged
four times each way. -/
def Obligations.FrameIsTheEnlargedCanvas : Prop :=
  ∀ s : State,
    (∀ a : Nat, 0x3C00 ≤ a → a ≤ 0x3FFF → 128 ≤ (s.readByte a).toNat ∧ (s.readByte a).toNat ≤ 191) →
    ∃ (t u : State) (p g : List Byte),
      exec .renderFrame s = .next t ∧ Answered s t ⟨.ok, 0, p⟩ ∧
      exec .getGraphicsSnapshot s = .next u ∧ Answered s u ⟨.ok, 0, g⟩ ∧
      ∀ px py : Nat, px < 512 → py < 192 →
        ((p.getD (py * 64 + px / 8) 0).getLsbD (7 - px % 8) = true ↔
          g.getD (py / 4 * 128 + px / 4) 0 = 1)

/-- R153, R194 with C3 (decision D25): a byte 192 to 255 has the glyph of the code 64 below it, yet POINT
answers 0 for its pixels and RESET leaves it alone. -/
def Obligations.HighCodesAreDrawnNotQueried : Prop :=
  ∀ (x y : Int) (s : State), inBounds x y = true →
    192 ≤ (s.readByte (blockAddr x y)).toNat →
      charRom (s.readByte (blockAddr x y)) = charRom (s.readByte (blockAddr x y) - 64) ∧
      (∃ t : State, exec (.pointPixel x y) s = .next t ∧ Answered s t ⟨.ok, 0, []⟩) ∧
      ∃ u : State, exec (.resetPixel x y) s = .next u ∧ SameBlock s u ∧ Answered s u ⟨.ok, 0, []⟩

/-! ## Whole-machine rules -/

/-- R26: no operation the port can carry changes a component that the table of writers does not grant it.
-/
def Obligations.OnlyTheListedWritersWrite : Prop :=
  ∀ (i : Instr) (s t : State) (c : Component), wellFormed i = true → exec i s = .next t →
    c ∉ mayChange i → c.Unchanged s t

/-- R26, R57, 95_test_vectors.md section 5 item 2: whatever the command, if it is no `loadROM` then no byte
of 0x0000 to 0x3BFF changes. -/
def Obligations.OnlyLoadROMChangesProtectedROM : Prop :=
  ∀ (s t : State) (cmd : Command) (rest : List Command) (a : Nat),
    s.commands = cmd :: rest → fieldOp cmd.word ≠ 0x02 → step s = .next t → a ≤ 0x3BFF →
      t.readByte a = s.readByte a

/-- R23: `romLoaded` is true after an operation exactly when it was true before or the operation was a
successful `loadROM`. -/
def Obligations.OnlyLoadROMSetsRomLoaded : Prop :=
  ∀ (i : Instr) (s t : State), exec i s = .next t →
    (t.romLoaded = true ↔ s.romLoaded = true ∨
      ∃ data, i = .loadROM data ∧ (data.length = 14336 ∨ data.length = 16384))
end

