-- ==== Sys2Proof/Laws/Decode.lean ====
section
/-! SUPPORT. The laws of the command word: its fields, its row, and operand fields that read back. -/

namespace Sys2Proof

/-! ### Fields of a command word -/

@[simp] theorem fieldC_commandWord (op : Opcode) (a b c : Word) :
    fieldC (commandWord op a b c) = c :=
  BitVec.extractLsb'_append_eq_right

theorem toNat_commandWord (op : Opcode) (a b c : Word) :
    (commandWord op a b c).toNat
      = op.code.toNat * 2 ^ 56 + a.toNat * 2 ^ 32 + b.toNat * 2 ^ 16 + c.toNat := by
  simp only [commandWord, BitVec.toNat_append]
  rw [← Nat.shiftLeft_add_eq_or_of_lt c.isLt, ← Nat.shiftLeft_add_eq_or_of_lt b.isLt,
    ← Nat.shiftLeft_add_eq_or_of_lt a.isLt, ← Nat.shiftLeft_add_eq_or_of_lt (0 : Byte).isLt]
  simp only [Nat.shiftLeft_eq, show (0 : Byte).toNat = 0 from rfl]
  omega

@[simp] theorem fieldB_commandWord (op : Opcode) (a b c : Word) :
    fieldB (commandWord op a b c) = b := by
  apply BitVec.eq_of_toNat_eq
  simp only [fieldB, BitVec.extractLsb'_toNat, toNat_commandWord, Nat.shiftRight_eq_div_pow]
  have := b.isLt; have := c.isLt
  omega

@[simp] theorem fieldA_commandWord (op : Opcode) (a b c : Word) :
    fieldA (commandWord op a b c) = a := by
  apply BitVec.eq_of_toNat_eq
  simp only [fieldA, BitVec.extractLsb'_toNat, toNat_commandWord, Nat.shiftRight_eq_div_pow]
  have := a.isLt; have := b.isLt; have := c.isLt
  omega

@[simp] theorem fieldOp_commandWord (op : Opcode) (a b c : Word) :
    fieldOp (commandWord op a b c) = op.code := by
  apply BitVec.eq_of_toNat_eq
  simp only [fieldOp, BitVec.extractLsb'_toNat, toNat_commandWord, Nat.shiftRight_eq_div_pow]
  have := a.isLt; have := b.isLt; have := c.isLt; have := op.code.isLt
  omega

@[simp] theorem fieldRsv_commandWord (op : Opcode) (a b c : Word) :
    fieldRsv (commandWord op a b c) = 0 := by
  apply BitVec.eq_of_toNat_eq
  simp only [fieldRsv, BitVec.extractLsb'_toNat, toNat_commandWord, Nat.shiftRight_eq_div_pow]
  have := a.isLt; have := b.isLt; have := c.isLt
  simp only [BitVec.ofNat_eq_ofNat, BitVec.toNat_ofNat]
  omega

/-- A command word is its five fields (R81). -/
theorem commandWord_fields (op : Opcode) (cw : CommandWord) (hop : fieldOp cw = op.code)
    (hrsv : fieldRsv cw = 0) : commandWord op (fieldA cw) (fieldB cw) (fieldC cw) = cw := by
  apply BitVec.eq_of_toNat_eq
  have h1 := congrArg BitVec.toNat hop
  have h2 := congrArg BitVec.toNat hrsv
  simp only [fieldOp, fieldRsv, BitVec.extractLsb'_toNat, Nat.shiftRight_eq_div_pow,
    show (0 : Byte).toNat = 0 from rfl] at h1 h2
  rw [toNat_commandWord, ← h1]
  simp only [fieldA, fieldB, fieldC, BitVec.extractLsb'_toNat, Nat.shiftRight_eq_div_pow]
  have := cw.isLt
  omega

/-! ### Masks -/

theorem Opcode.matchWord_eq (op : Opcode) : op.matchWord = commandWord op 0 0 0 := by
  cases op <;> rfl

theorem Format.mask_op (f : Format) : fieldOp f.mask = 0xFF := by cases f <;> rfl

theorem Format.mask_rsv (f : Format) : fieldRsv f.mask = 0xFF := by cases f <;> rfl

theorem fieldOp_and (x y : CommandWord) : fieldOp (x &&& y) = fieldOp x &&& fieldOp y :=
  BitVec.extractLsb'_and

theorem fieldRsv_and (x y : CommandWord) : fieldRsv (x &&& y) = fieldRsv x &&& fieldRsv y :=
  BitVec.extractLsb'_and

theorem fieldA_and (x y : CommandWord) : fieldA (x &&& y) = fieldA x &&& fieldA y :=
  BitVec.extractLsb'_and

theorem fieldB_and (x y : CommandWord) : fieldB (x &&& y) = fieldB x &&& fieldB y :=
  BitVec.extractLsb'_and

theorem fieldC_and (x y : CommandWord) : fieldC (x &&& y) = fieldC x &&& fieldC y :=
  BitVec.extractLsb'_and

theorem and_allOnes8 (b : Byte) : b &&& 0xFF = b := by
  rw [show (0xFF : Byte) = BitVec.allOnes 8 from rfl, BitVec.and_allOnes]

/-- Masking a command word masks its three operand fields and nothing else (R82). -/
theorem commandWord_and_mask (op : Opcode) (a b c : Word) (f : Format) :
    commandWord op a b c &&& f.mask
      = commandWord op (a &&& fieldA f.mask) (b &&& fieldB f.mask) (c &&& fieldC f.mask) := by
  rw [← commandWord_fields op (commandWord op a b c &&& f.mask)
    (by rw [fieldOp_and, f.mask_op, fieldOp_commandWord, and_allOnes8])
    (by rw [fieldRsv_and, f.mask_rsv, fieldRsv_commandWord, and_allOnes8])]
  simp [fieldA_and, fieldB_and, fieldC_and]

/-- A word that passes the mask test of a row has RSV zero, and zeros under the operand masks (R82,
R88). -/
theorem fields_of_match {op : Opcode} {f : Format} {cw : CommandWord}
    (h : cw &&& f.mask = op.matchWord) :
    fieldRsv cw = 0 ∧ fieldA cw &&& fieldA f.mask = 0 ∧ fieldB cw &&& fieldB f.mask = 0 ∧
      fieldC cw &&& fieldC f.mask = 0 := by
  rw [Opcode.matchWord_eq] at h
  refine ⟨?_, ?_, ?_, ?_⟩
  · rw [← and_allOnes8 (fieldRsv cw), ← f.mask_rsv, ← fieldRsv_and, h, fieldRsv_commandWord]
  · rw [← fieldA_and, h, fieldA_commandWord]
  · rw [← fieldB_and, h, fieldB_commandWord]
  · rw [← fieldC_and, h, fieldC_commandWord]

/-- A field under the mask `2^16 - 2^k` holds only its low `k` bits. -/
theorem masked_low (c : Word) (k : Nat) (m : Word) (hk : k ≤ 16)
    (hm : m.toNat >>> k = 2 ^ (16 - k) - 1) (h : c &&& m = 0) : c.toNat < 2 ^ k := by
  have hn : (c.toNat &&& m.toNat) >>> k = 0 := by
    rw [← BitVec.toNat_and, h]
    simp
  rw [Nat.shiftRight_and_distrib, hm, Nat.and_two_pow_sub_one_eq_mod,
    Nat.shiftRight_eq_div_pow] at hn
  have hp : 2 ^ 16 = 2 ^ (16 - k) * 2 ^ k := by
    rw [← Nat.pow_add]; congr 1; omega
  have hlt : c.toNat / 2 ^ k < 2 ^ (16 - k) := by
    apply Nat.div_lt_of_lt_mul
    rw [Nat.mul_comm, ← hp]
    exact c.isLt
  rw [Nat.mod_eq_of_lt hlt] at hn
  exact (Nat.div_eq_zero_iff_lt (Nat.two_pow_pos k)).1 hn

/-- The field C of format M is a bit (R82). -/
theorem formatM_fieldC (c : Word) (h : c &&& fieldC Format.M.mask = 0) : c.toNat ≤ 1 :=
  Nat.lt_succ_iff.1 (masked_low c 1 _ (by decide) (by decide) h)

/-- The field C of format G is a byte (R82). -/
theorem formatG_fieldC (c : Word) (h : c &&& fieldC Format.G.mask = 0) : c.toNat ≤ 255 :=
  Nat.lt_succ_iff.1 (masked_low c 8 _ (by decide) (by decide) h)

/-! ### Rows -/

/-- A row is found by its own code: no two rows share an OP (R88). -/
@[simp] theorem Opcode.ofCode?_code (op : Opcode) : Opcode.ofCode? op.code = some op := by
  cases op <;> rfl

theorem Opcode.code_of_ofCode? {c : Byte} {op : Opcode} (h : Opcode.ofCode? c = some op) :
    op.code = c := by
  have := List.find?_some h
  simpa using this

/-- The decoder on a word of a given row. -/
theorem decode_commandWord (op : Opcode) (a b c : Word) (p : List Byte)
    (hmask : commandWord op a b c &&& op.format.mask = op.matchWord)
    (hlen : p.length = payloadLength op (commandWord op a b c)) :
    decode ⟨commandWord op a b c, p⟩ = .ok (op.operation (commandWord op a b c) p) := by
  simp [decode, hmask, hlen]

/-- What a decoded command says of its word. -/
theorem decode_eq_ok {cmd : Command} {i : Instr} (h : decode cmd = .ok i) :
    ∃ op : Opcode, fieldOp cmd.word = op.code ∧ cmd.word &&& op.format.mask = op.matchWord ∧
      cmd.payload.length = payloadLength op cmd.word ∧ i = op.operation cmd.word cmd.payload := by
  simp only [decode] at h
  split at h
  · cases h
  · next op hop =>
    split at h
    · cases h
    · next hmask =>
      split at h
      · cases h
      · next hlen =>
        cases h
        exact ⟨op, (Opcode.code_of_ofCode? hop).symm, not_not.1 hmask, not_not.1 hlen, rfl⟩

/-! ### Operand fields -/

theorem fitsUnsigned_iff (a : Int) : fitsUnsigned a = true ↔ 0 ≤ a ∧ a < 65536 := by
  simp [fitsUnsigned]

theorem fitsSigned_iff (a : Int) : fitsSigned a = true ↔ -32768 ≤ a ∧ a ≤ 32767 := by
  simp [fitsSigned]

theorem fitsLength_iff (d : List Byte) : fitsLength d = true ↔ d.length ≤ 65535 := by
  simp [fitsLength]

/-- An unsigned operand reads back as its residue (R83). -/
theorem unsignedOperand_operandField (a : Int) : unsignedOperand (operandField a) = a % 65536 := by
  simp only [unsignedOperand, operandField, BitVec.toNat_ofInt]
  omega

/-- An unsigned operand the port can carry reads back unchanged. -/
theorem unsignedOperand_of_fits {a : Int} (h : fitsUnsigned a = true) :
    unsignedOperand (operandField a) = a := by
  rw [fitsUnsigned_iff] at h
  rw [unsignedOperand_operandField]
  omega

/-- A signed operand the port can carry reads back unchanged (R85). -/
theorem signedOperand_of_fits {a : Int} (h : fitsSigned a = true) :
    signedOperand (operandField a) = a := by
  rw [fitsSigned_iff] at h
  simp only [signedOperand, operandField, BitVec.toInt_ofInt]
  rw [Int.bmod_def]
  omega

/-- A length the port can carry reads back unchanged (R86). -/
theorem lengthField_of_fits {d : List Byte} (h : fitsLength d = true) :
    (lengthField d).toNat = d.length := by
  rw [fitsLength_iff] at h
  simp only [lengthField, BitVec.toNat_ofNat]
  omega

theorem fitsUnsigned_unsignedOperand (w : Word) : fitsUnsigned (unsignedOperand w) = true := by
  rw [fitsUnsigned_iff, unsignedOperand]
  have := w.isLt
  omega

theorem fitsSigned_signedOperand (w : Word) : fitsSigned (signedOperand w) = true := by
  rw [fitsSigned_iff, signedOperand]
  have h1 := BitVec.toInt_lt (x := w)
  have h2 := BitVec.le_toInt (x := w)
  omega

@[simp] theorem operandField_unsignedOperand (w : Word) : operandField (unsignedOperand w) = w := by
  simp [operandField, unsignedOperand]

@[simp] theorem operandField_signedOperand (w : Word) : operandField (signedOperand w) = w := by
  simp [operandField, signedOperand]

end Sys2Proof
end

