-- ==== Sys2Proof/Laws/Memory.lean ====
section
/-! SUPPORT. The laws of the byte arrays: a read after a write, the canonical form kept by every operation,
and arrays that read alike are equal. -/

namespace Sys2Proof.Machine

namespace Memory

@[simp] theorem read_nil (i : Nat) : read [] i = 0 := rfl

@[simp] theorem read_cons (k : Nat) (v : Byte) (m : Memory) (i : Nat) :
    read ((k, v) :: m) i = if k = i then v else read m i := rfl

@[simp] theorem read_zeroFilled (i : Nat) : read zeroFilled i = 0 := rfl

/-! ### Reads after writes -/

theorem read_insert (m : Memory) (i j : Nat) (v : Byte) :
    (m.insert i v).read j = if i = j then v else m.read j := by
  induction m with
  | nil => simp [insert]
  | cons c m ih =>
    obtain ⟨k, w⟩ := c
    simp only [insert]
    split
    · simp only [read_cons, ih]
      by_cases hk : k = j
      · have : i ≠ j := by omega
        simp [hk, this]
      · simp [hk]
    · simp

theorem read_erase (m : Memory) (i j : Nat) :
    (m.erase i).read j = if i = j then 0 else m.read j := by
  induction m with
  | nil => simp [erase]
  | cons c m ih =>
    obtain ⟨k, w⟩ := c
    simp only [erase] at ih ⊢
    by_cases hk : k = i
    · subst hk
      by_cases hj : k = j <;> simp_all
    · by_cases hj : i = j
      · subst hj; simp_all
      · simp_all

/-- A read after a write: the written byte at its index, every other byte as before. -/
theorem read_write (m : Memory) (i j : Nat) (v : Byte) :
    (m.write i v).read j = if i = j then v else m.read j := by
  simp only [write]
  split
  · next h => rw [read_erase, h]; rfl
  · rw [read_insert, read_erase]
    split <;> rfl

theorem read_ofBytesFrom (d : List Byte) (i j : Nat) :
    (ofBytesFrom i d).read j = if i ≤ j then d.getD (j - i) 0 else 0 := by
  induction d generalizing i with
  | nil => simp [ofBytesFrom]
  | cons b bs ih =>
    simp only [ofBytesFrom]
    have key : (if i = j then b else (ofBytesFrom (i + 1) bs).read j)
        = if i ≤ j then (b :: bs).getD (j - i) 0 else 0 := by
      rw [ih]
      rcases Nat.lt_trichotomy i j with h | h | h
      · obtain ⟨n, rfl⟩ : ∃ n, j = i + 1 + n := ⟨j - (i + 1), by omega⟩
        have e : i + 1 + n - i = n + 1 := by omega
        simp [show i ≠ i + 1 + n by omega, show i ≤ i + 1 + n by omega, e]
      · simp [h]
      · simp [show i ≠ j by omega, show ¬ i ≤ j by omega, show ¬ i + 1 ≤ j by omega]
    split
    · next h =>
      rw [← key, ih]
      by_cases hj : i = j
      · have : ¬ i + 1 ≤ j := by omega
        simp [hj, h, unlisted]
      · simp [hj]
    · simpa using key

/-- The copy of `loadROM` reads back byte for byte, and zero past its end. -/
theorem read_ofBytes (d : List Byte) (j : Nat) : (ofBytes d).read j = d.getD j 0 := by
  simp [ofBytes, read_ofBytesFrom]

/-! ### The canonical form -/

theorem wf_cons (k : Nat) (v : Byte) (m : Memory) :
    wf ((k, v) :: m) = true ↔ v ≠ 0 ∧ (∀ c ∈ m, k < c.1) ∧ wf m = true := by
  simp [wf, unlisted, and_assoc]

theorem wf_erase {m : Memory} (h : m.wf = true) (i : Nat) : (m.erase i).wf = true := by
  induction m with
  | nil => rfl
  | cons c m ih =>
    obtain ⟨k, w⟩ := c
    obtain ⟨hw, hk, hm⟩ := (wf_cons k w m).1 h
    simp only [erase, List.filter_cons] at ih ⊢
    split
    · exact (wf_cons ..).2 ⟨hw, fun c hc => hk c (List.mem_of_mem_filter hc), ih hm⟩
    · exact ih hm

theorem erase_ne (m : Memory) (i : Nat) : ∀ c ∈ m.erase i, c.1 ≠ i := by
  intro c hc
  simpa [erase] using (List.mem_filter.1 hc).2

theorem mem_insert {m : Memory} {i : Nat} {v : Byte} {c : Host.Cell} (h : c ∈ m.insert i v) :
    c = (i, v) ∨ c ∈ m := by
  induction m with
  | nil => simpa [insert] using h
  | cons d m ih =>
    obtain ⟨k, w⟩ := d
    simp only [insert] at h
    split at h
    · rcases List.mem_cons.1 h with h | h
      · exact .inr (by simp [h])
      · exact (ih h).imp id (fun h => List.mem_cons_of_mem _ h)
    · simpa using h

theorem wf_insert {m : Memory} {i : Nat} {v : Byte} (h : m.wf = true) (hv : v ≠ 0)
    (hi : ∀ c ∈ m, c.1 ≠ i) : (m.insert i v).wf = true := by
  induction m with
  | nil => simpa [insert, wf, unlisted] using hv
  | cons d m ih =>
    obtain ⟨k, w⟩ := d
    obtain ⟨hw, hk, hm⟩ := (wf_cons k w m).1 h
    simp only [insert]
    split
    · next hlt =>
      refine (wf_cons ..).2 ⟨hw, ?_, ih hm fun c hc => hi c (List.mem_cons_of_mem _ hc)⟩
      intro c hc
      rcases mem_insert hc with rfl | hc
      · exact hlt
      · exact hk c hc
    · next hlt =>
      have hki : k ≠ i := hi (k, w) (by simp)
      refine (wf_cons ..).2 ⟨hv, ?_, h⟩
      intro c hc
      rcases List.mem_cons.1 hc with rfl | hc
      · simp only; omega
      · have := hk c hc; omega

/-- A write keeps the canonical form. -/
theorem wf_write {m : Memory} (h : m.wf = true) (i : Nat) (v : Byte) :
    (m.write i v).wf = true := by
  simp only [write]
  split
  · exact wf_erase h i
  · next hv => exact wf_insert (wf_erase h i) hv (erase_ne m i)

theorem mem_ofBytesFrom {d : List Byte} {i : Nat} {c : Host.Cell} (h : c ∈ ofBytesFrom i d) :
    i ≤ c.1 ∧ c.1 < i + d.length := by
  induction d generalizing i with
  | nil => simp [ofBytesFrom] at h
  | cons b bs ih =>
    simp only [ofBytesFrom] at h
    split at h
    · have := ih h; simp only [List.length_cons]; omega
    · rcases List.mem_cons.1 h with rfl | h
      · simp
      · have := ih h; simp only [List.length_cons]; omega

theorem wf_ofBytesFrom (d : List Byte) (i : Nat) : (ofBytesFrom i d).wf = true := by
  induction d generalizing i with
  | nil => rfl
  | cons b bs ih =>
    simp only [ofBytesFrom]
    split
    · exact ih _
    · next hb => exact (wf_cons ..).2 ⟨hb, fun c hc => (mem_ofBytesFrom hc).1, ih _⟩

/-- A copied array is in canonical form. -/
theorem wf_ofBytes (d : List Byte) : (ofBytes d).wf = true := wf_ofBytesFrom d 0

@[simp] theorem wf_zeroFilled : zeroFilled.wf = true := rfl

/-! ### The bounds -/

theorem within_iff {size : Nat} {m : Memory} : m.within size = true ↔ ∀ c ∈ m, c.1 < size := by
  simp [within]

theorem within_write {size : Nat} {m : Memory} (h : m.within size = true) {i : Nat}
    (hi : i < size) (v : Byte) : (m.write i v).within size = true := by
  rw [within_iff] at h ⊢
  intro c hc
  simp only [write] at hc
  split at hc
  · exact h c (List.mem_of_mem_filter hc)
  · rcases mem_insert hc with rfl | hc
    · exact hi
    · exact h c (List.mem_of_mem_filter hc)

theorem within_ofBytes {size : Nat} {d : List Byte} (h : d.length ≤ size) :
    (ofBytes d).within size = true := by
  rw [within_iff]
  intro c hc
  have := mem_ofBytesFrom hc
  omega

@[simp] theorem within_zeroFilled (size : Nat) : zeroFilled.within size = true := rfl

/-- A byte past the end of an array in bounds reads as unlisted. -/
theorem read_of_within {size : Nat} {m : Memory} (h : m.within size = true) {i : Nat}
    (hi : size ≤ i) : m.read i = 0 := by
  rw [within_iff] at h
  induction m with
  | nil => rfl
  | cons c m ih =>
    have hc : c.1 < size := h c (by simp)
    obtain ⟨k, w⟩ := c
    simp only at hc
    simp [show k ≠ i by omega, ih fun c hc => h c (by simp [hc])]

/-! ### Arrays that read alike are equal -/

theorem read_eq_zero_of_lt {m : Memory} {i : Nat} (h : ∀ c ∈ m, i < c.1) : m.read i = 0 := by
  induction m with
  | nil => rfl
  | cons c m ih =>
    have hc : i < c.1 := h c (by simp)
    obtain ⟨k, w⟩ := c
    simp only at hc
    simp [show k ≠ i by omega, ih fun c hc => h c (by simp [hc])]

/-- The canonical form is unique: arrays in canonical form with the same bytes are equal. -/
theorem ext {m n : Memory} (hm : m.wf = true) (hn : n.wf = true)
    (h : ∀ i, m.read i = n.read i) : m = n := by
  induction m generalizing n with
  | nil =>
    cases n with
    | nil => rfl
    | cons d n =>
      obtain ⟨k, w⟩ := d
      have := h k
      simp only [read_nil, read_cons, if_true] at this
      exact absurd this.symm ((wf_cons ..).1 hn).1
  | cons c m ih =>
    obtain ⟨k, w⟩ := c
    obtain ⟨hw, hk, hm'⟩ := (wf_cons ..).1 hm
    cases n with
    | nil =>
      have := h k
      simp only [read_nil, read_cons, if_true] at this
      exact absurd this hw
    | cons d n =>
      obtain ⟨l, x⟩ := d
      obtain ⟨hx, hl, hn'⟩ := (wf_cons ..).1 hn
      have hkl : k = l := by
        rcases Nat.lt_trichotomy k l with hlt | heq | hgt
        · have := h k
          simp only [read_cons, if_true, show l ≠ k by omega, if_false] at this
          rw [read_eq_zero_of_lt fun c hc => Nat.lt_trans hlt (hl c hc)] at this
          exact absurd this hw
        · exact heq
        · have := h l
          simp only [read_cons, if_true, show k ≠ l by omega, if_false] at this
          rw [read_eq_zero_of_lt fun c hc => Nat.lt_trans hgt (hk c hc)] at this
          exact absurd this.symm hx
      subst hkl
      have hwx : w = x := by simpa using h k
      subst hwx
      have : m = n := by
        refine ih hm' hn' fun i => ?_
        have := h i
        simp only [read_cons] at this
        by_cases hi : k = i
        · subst hi
          rw [read_eq_zero_of_lt hk, read_eq_zero_of_lt hl]
        · simpa [hi] using this
      rw [this]

end Memory

end Sys2Proof.Machine
end

