-- ==== Sys2Proof/Laws/Operands.lean ====
section
/-! SUPPORT. The laws of the operand functions: address reduction, block and cell addresses, the pattern
lanes of a graphics code, and lines of pixels. -/

namespace Sys2Proof.Machine

/-! ### Address reduction -/

theorem reduceAddr_eq (a : Int) : (reduceAddr a : Int) = a % 65536 := by
  simp only [reduceAddr, Config.totalSize]; omega

theorem reduceAddr_lt (a : Int) : reduceAddr a < 65536 := by
  have := reduceAddr_eq a; omega

/-- An address in range is its own reduction. -/
theorem reduceAddr_of_range {a : Int} (h0 : 0 ≤ a) (h1 : a < 65536) :
    (reduceAddr a : Int) = a := by
  have := reduceAddr_eq a; omega

@[simp] theorem reduceAddr_natCast {n : Nat} (h : n < 65536) : reduceAddr (n : Int) = n := by
  have := reduceAddr_eq n; omega

/-- Reduction is idempotent. -/
@[simp] theorem reduceAddr_reduceAddr (a : Int) : reduceAddr (reduceAddr a : Int) = reduceAddr a :=
  reduceAddr_natCast (reduceAddr_lt a)

/-- Addresses that differ by a multiple of 65536 are the same address (R51). -/
theorem reduceAddr_add_mul (a k : Int) : reduceAddr (a + 65536 * k) = reduceAddr a := by
  have := reduceAddr_eq a; have := reduceAddr_eq (a + 65536 * k); omega

theorem reduceAddr_eq_iff (a b : Int) : reduceAddr a = reduceAddr b ↔ (b - a) % 65536 = 0 := by
  have := reduceAddr_eq a; have := reduceAddr_eq b; omega

/-! ### Block and cell addresses -/

theorem inBounds_iff (x y : Int) : inBounds x y = true ↔ 0 ≤ x ∧ x ≤ 127 ∧ 0 ≤ y ∧ y ≤ 47 := by
  simp [inBounds]

/-- A block address on the canvas lies in the video window (R70). -/
theorem blockAddr_range {x y : Int} (h : inBounds x y = true) :
    0x3C00 ≤ reduceAddr (blockAddr x y) ∧ reduceAddr (blockAddr x y) ≤ 0x3FFF := by
  rw [inBounds_iff] at h
  have := reduceAddr_eq (blockAddr x y)
  simp only [blockAddr, Config.videoStart] at *
  omega

/-- A cell address on the 16 by 64 grid lies in the video window (R71). -/
theorem cellAddr_eq {r c : Nat} (hr : r < 16) (hc : c < 64) :
    reduceAddr (cellAddr r c) = 0x3C00 + r * 64 + c := by
  have := reduceAddr_eq (cellAddr r c)
  simp only [cellAddr, Config.videoStart] at *
  omega

/-- The block of a canvas coordinate and the cell at (row `y div 3`, column `x div 2`) are one byte
(R71). -/
theorem blockAddr_eq_cellAddr (x y : Nat) :
    blockAddr x y = cellAddr ((y / 3 : Nat) : Int) ((x / 2 : Nat) : Int) := by
  simp only [blockAddr, cellAddr, Config.videoStart]
  omega

/-! ### Regions -/

theorem region_ram {a : Nat} (h : 0x4000 ≤ a) : region a = .ram := by
  simp [region, Config.ramBase, h]

theorem region_video {a : Nat} (h : 0x3C00 ≤ a) (h' : a ≤ 0x3FFF) : region a = .video := by
  simp [region, Config.ramBase, Config.videoStart, Config.videoEnd, h, h',
    show ¬ 0x4000 ≤ a by omega]

theorem region_protected {a : Nat} (h : a < 0x3C00) : region a = .romProtected := by
  simp [region, Config.ramBase, Config.videoStart, show ¬ 0x4000 ≤ a by omega,
    show ¬ 0x3C00 ≤ a by omega]

/-! ### Words -/

@[simp] theorem lowByte_joinBytes (hi lo : Byte) : lowByte (joinBytes hi lo) = lo :=
  BitVec.extractLsb'_append_eq_right

@[simp] theorem highByte_joinBytes (hi lo : Byte) : highByte (joinBytes hi lo) = hi :=
  BitVec.extractLsb'_append_eq_left

@[simp] theorem joinBytes_split (w : Word) : joinBytes (highByte w) (lowByte w) = w := by
  simp only [highByte, lowByte, joinBytes]
  ext i hi
  simp only [BitVec.getElem_append, BitVec.getElem_extractLsb']
  split
  · simp [BitVec.getLsbD_eq_getElem, hi]
  · simp [show 8 + (i - 8) = i by omega, BitVec.getLsbD_eq_getElem, hi]

/-- `hi * 256 + lo` (R124). -/
theorem joinBytes_toNat (hi lo : Byte) : (joinBytes hi lo).toNat = hi.toNat * 256 + lo.toNat := by
  simp only [joinBytes, BitVec.toNat_append]
  rw [← Nat.shiftLeft_add_eq_or_of_lt lo.isLt, Nat.shiftLeft_eq]

/-! ### Graphics codes -/

set_option maxRecDepth 4000 in
@[simp] theorem isGraphics_pack (p : Pattern) : isGraphics (pack p) = true := by
  revert p; decide

set_option maxRecDepth 4000 in
@[simp] theorem pattern_pack (p : Pattern) : pattern (pack p) = p := by
  revert p; decide

set_option maxRecDepth 8000 in
theorem pack_pattern (b : Byte) (h : isGraphics b = true) : pack (pattern b) = b := by
  revert b; decide

theorem isGraphics_iff (b : Byte) : isGraphics b = true ↔ 128 ≤ b.toNat ∧ b.toNat ≤ 191 := by
  rw [isGraphics, decide_eq_true_iff]

/-- The bit index of a coordinate is a lane of the pattern (R160). -/
theorem bitIndex_lt (x y : Int) : bitIndex x y < 6 := by
  simp only [bitIndex]; omega

/-- A masked pattern is non-zero exactly when the coordinate's lane is on. -/
theorem and_bitMask_ne_zero (p : Pattern) (x y : Int) :
    ((p &&& bitMask x y) != 0) = p.getLsbD (bitIndex x y) := by
  have h := bitIndex_lt x y
  simp only [bitMask]
  generalize bitIndex x y = k at h
  have hk : k = 0 ∨ k = 1 ∨ k = 2 ∨ k = 3 ∨ k = 4 ∨ k = 5 := by omega
  revert p
  rcases hk with rfl | rfl | rfl | rfl | rfl | rfl <;> decide

/-- A pixel is on when the byte is a graphics code and the coordinate's lane is on. -/
theorem pixelOn_eq (b : Byte) (x y : Int) :
    pixelOn b x y = (isGraphics b && (pattern b).getLsbD (bitIndex x y)) := by
  rw [pixelOn, and_bitMask_ne_zero]

/-- `128 + p` as a number (R154). -/
theorem pack_toNat (p : Pattern) : (pack p).toNat = 128 + p.toNat := by
  have := p.isLt
  simp only [pack, BitVec.toNat_add, BitVec.toNat_setWidth, show (128 : Byte).toNat = 128 from rfl]
  omega

/-- `b - 128` as a number (R153). -/
theorem pattern_toNat (b : Byte) (h : isGraphics b = true) : (pattern b).toNat = b.toNat - 128 := by
  rw [isGraphics_iff] at h
  simp only [pattern, BitVec.toNat_setWidth, BitVec.toNat_sub, show (128 : Byte).toNat = 128 from rfl]
  omega

/-- `1 << bitIndex` as a number (R152). -/
theorem bitMask_toNat (x y : Int) : (bitMask x y).toNat = 2 ^ bitIndex x y := by
  have h := bitIndex_lt x y
  have : 2 ^ bitIndex x y < 2 ^ 6 := Nat.pow_lt_pow_right (by omega) h
  rw [bitMask, BitVec.toNat_shiftLeft, show (1 : Pattern).toNat = 1 from rfl, Nat.shiftLeft_eq,
    Nat.one_mul, Nat.mod_eq_of_lt this]

/-- Setting a lane leaves every lane but that one. -/
theorem getLsbD_or_bitMask (p : Pattern) (x y : Int) (k : Nat) (hk : k < 6) :
    (p ||| bitMask x y).getLsbD k = (decide (k = bitIndex x y) || p.getLsbD k) := by
  have h := bitIndex_lt x y
  by_cases e : k = bitIndex x y
  · simp [bitMask, e, h]
  · have : ¬ k < bitIndex x y → (1 : Pattern).getLsbD (k - bitIndex x y) = false := by
      intro hlt
      have : k - bitIndex x y ≠ 0 := by omega
      simp [BitVec.getLsbD_one, this]
    by_cases hlt : k < bitIndex x y <;> simp_all [bitMask]

/-- Clearing a lane leaves every lane but that one. -/
theorem getLsbD_andNot_bitMask (p : Pattern) (x y : Int) (k : Nat) (hk : k < 6) :
    (p &&& ~~~ bitMask x y).getLsbD k = (!decide (k = bitIndex x y) && p.getLsbD k) := by
  have h := getLsbD_or_bitMask 0 x y k hk
  simp only [show (0 : Pattern) ||| bitMask x y = bitMask x y from BitVec.zero_or,
    show (0 : Pattern).getLsbD k = false from BitVec.getLsbD_zero, Bool.or_false] at h
  rw [BitVec.getLsbD_and, BitVec.getLsbD_not, h]
  simp [hk, Bool.and_comm]

/-! ### Lines of pixels -/

/-- Pixel `k` of a packed line is bit `7 - k` (R191). -/
theorem getLsbD_packLine (pixel : Nat → Bool) (k : Nat) (h : k < 8) :
    (packLine pixel).getLsbD (7 - k) = pixel k := by
  have e : packLine pixel = BitVec.ofNat 8 (([(pixel 0).toNat <<< 7, (pixel 1).toNat <<< 6,
      (pixel 2).toNat <<< 5, (pixel 3).toNat <<< 4, (pixel 4).toNat <<< 3, (pixel 5).toNat <<< 2,
      (pixel 6).toNat <<< 1, (pixel 7).toNat <<< 0]).sum) := rfl
  rw [e]
  have hk : k = 0 ∨ k = 1 ∨ k = 2 ∨ k = 3 ∨ k = 4 ∨ k = 5 ∨ k = 6 ∨ k = 7 := by omega
  rcases hk with rfl | rfl | rfl | rfl | rfl | rfl | rfl | rfl <;>
    generalize pixel 0 = p0 <;> generalize pixel 1 = p1 <;> generalize pixel 2 = p2 <;>
    generalize pixel 3 = p3 <;> generalize pixel 4 = p4 <;> generalize pixel 5 = p5 <;>
    generalize pixel 6 = p6 <;> generalize pixel 7 = p7 <;>
    revert p0 p1 p2 p3 p4 p5 p6 p7 <;> decide

end Sys2Proof.Machine
end

