-- ==== Sys2Proof/Laws/State.lean ====
section
/-! SUPPORT. One lemma per field per update of the state, so that no proof unfolds a record update. -/

namespace Sys2Proof.Machine

/-! ### `respond` -/

@[simp] theorem State.respond_rom (s : State) (r : Response) : (s.respond r).rom = s.rom := rfl
@[simp] theorem State.respond_ram (s : State) (r : Response) : (s.respond r).ram = s.ram := rfl
@[simp] theorem State.respond_romLoaded (s : State) (r : Response) :
    (s.respond r).romLoaded = s.romLoaded := rfl
@[simp] theorem State.respond_textMode (s : State) (r : Response) :
    (s.respond r).textMode = s.textMode := rfl
@[simp] theorem State.respond_commands (s : State) (r : Response) :
    (s.respond r).commands = s.commands := rfl
@[simp] theorem State.respond_responses (s : State) (r : Response) :
    (s.respond r).responses = s.responses ++ [r] := rfl

/-! ### `markLoaded` -/

@[simp] theorem State.markLoaded_rom (s : State) : s.markLoaded.rom = s.rom := rfl
@[simp] theorem State.markLoaded_ram (s : State) : s.markLoaded.ram = s.ram := rfl
@[simp] theorem State.markLoaded_romLoaded (s : State) : s.markLoaded.romLoaded = true := rfl
@[simp] theorem State.markLoaded_textMode (s : State) : s.markLoaded.textMode = s.textMode := rfl
@[simp] theorem State.markLoaded_commands (s : State) : s.markLoaded.commands = s.commands := rfl
@[simp] theorem State.markLoaded_responses (s : State) :
    s.markLoaded.responses = s.responses := rfl

/-! ### `storeTextMode` -/

@[simp] theorem State.storeTextMode_rom (s : State) (m : Bool) :
    (s.storeTextMode m).rom = s.rom := rfl
@[simp] theorem State.storeTextMode_ram (s : State) (m : Bool) :
    (s.storeTextMode m).ram = s.ram := rfl
@[simp] theorem State.storeTextMode_romLoaded (s : State) (m : Bool) :
    (s.storeTextMode m).romLoaded = s.romLoaded := rfl
@[simp] theorem State.storeTextMode_textMode (s : State) (m : Bool) :
    (s.storeTextMode m).textMode = m := rfl
@[simp] theorem State.storeTextMode_commands (s : State) (m : Bool) :
    (s.storeTextMode m).commands = s.commands := rfl
@[simp] theorem State.storeTextMode_responses (s : State) (m : Bool) :
    (s.storeTextMode m).responses = s.responses := rfl

/-! ### `installROM` -/

@[simp] theorem State.installROM_rom (s : State) (d : List Byte) :
    (s.installROM d).rom = Memory.ofBytes d := rfl
@[simp] theorem State.installROM_ram (s : State) (d : List Byte) :
    (s.installROM d).ram = s.ram := rfl
@[simp] theorem State.installROM_romLoaded (s : State) (d : List Byte) :
    (s.installROM d).romLoaded = s.romLoaded := rfl
@[simp] theorem State.installROM_textMode (s : State) (d : List Byte) :
    (s.installROM d).textMode = s.textMode := rfl
@[simp] theorem State.installROM_commands (s : State) (d : List Byte) :
    (s.installROM d).commands = s.commands := rfl
@[simp] theorem State.installROM_responses (s : State) (d : List Byte) :
    (s.installROM d).responses = s.responses := rfl

/-! ### `zeroRAM` -/

@[simp] theorem State.zeroRAM_rom (s : State) : s.zeroRAM.rom = s.rom := rfl
@[simp] theorem State.zeroRAM_ram (s : State) : s.zeroRAM.ram = Memory.zeroFilled := rfl
@[simp] theorem State.zeroRAM_romLoaded (s : State) : s.zeroRAM.romLoaded = s.romLoaded := rfl
@[simp] theorem State.zeroRAM_textMode (s : State) : s.zeroRAM.textMode = s.textMode := rfl
@[simp] theorem State.zeroRAM_commands (s : State) : s.zeroRAM.commands = s.commands := rfl
@[simp] theorem State.zeroRAM_responses (s : State) : s.zeroRAM.responses = s.responses := rfl

/-! ### `storeByte` and the operations built on it -/

@[simp] theorem State.storeByte_romLoaded (s : State) (a : Int) (v : Byte) :
    (s.storeByte a v).romLoaded = s.romLoaded := rfl
@[simp] theorem State.storeByte_textMode (s : State) (a : Int) (v : Byte) :
    (s.storeByte a v).textMode = s.textMode := rfl
@[simp] theorem State.storeByte_commands (s : State) (a : Int) (v : Byte) :
    (s.storeByte a v).commands = s.commands := rfl
@[simp] theorem State.storeByte_responses (s : State) (a : Int) (v : Byte) :
    (s.storeByte a v).responses = s.responses := rfl

@[simp] theorem State.storeBytes_nil (s : State) (a : Int) : s.storeBytes a [] = s := rfl
@[simp] theorem State.storeBytes_cons (s : State) (a : Int) (b : Byte) (bs : List Byte) :
    s.storeBytes a (b :: bs) = (s.storeByte a b).storeBytes (a + 1) bs := rfl

@[simp] theorem State.storeBytes_romLoaded (s : State) (a : Int) (d : List Byte) :
    (s.storeBytes a d).romLoaded = s.romLoaded := by
  induction d generalizing s a <;> simp_all
@[simp] theorem State.storeBytes_textMode (s : State) (a : Int) (d : List Byte) :
    (s.storeBytes a d).textMode = s.textMode := by
  induction d generalizing s a <;> simp_all
@[simp] theorem State.storeBytes_commands (s : State) (a : Int) (d : List Byte) :
    (s.storeBytes a d).commands = s.commands := by
  induction d generalizing s a <;> simp_all
@[simp] theorem State.storeBytes_responses (s : State) (a : Int) (d : List Byte) :
    (s.storeBytes a d).responses = s.responses := by
  induction d generalizing s a <;> simp_all

@[simp] theorem State.fillBytes_zero (s : State) (a : Int) (v : Byte) : s.fillBytes a v 0 = s := rfl
theorem State.fillBytes_succ (s : State) (a : Int) (v : Byte) (n : Nat) :
    s.fillBytes a v (n + 1) = (s.fillBytes a v n).storeByte (a + (n : Int)) v := rfl

@[simp] theorem State.fillBytes_romLoaded (s : State) (a : Int) (v : Byte) (n : Nat) :
    (s.fillBytes a v n).romLoaded = s.romLoaded := by
  induction n with
  | zero => rfl
  | succ n ih => rw [State.fillBytes_succ, State.storeByte_romLoaded, ih]
@[simp] theorem State.fillBytes_textMode (s : State) (a : Int) (v : Byte) (n : Nat) :
    (s.fillBytes a v n).textMode = s.textMode := by
  induction n with
  | zero => rfl
  | succ n ih => rw [State.fillBytes_succ, State.storeByte_textMode, ih]
@[simp] theorem State.fillBytes_commands (s : State) (a : Int) (v : Byte) (n : Nat) :
    (s.fillBytes a v n).commands = s.commands := by
  induction n with
  | zero => rfl
  | succ n ih => rw [State.fillBytes_succ, State.storeByte_commands, ih]
@[simp] theorem State.fillBytes_responses (s : State) (a : Int) (v : Byte) (n : Nat) :
    (s.fillBytes a v n).responses = s.responses := by
  induction n with
  | zero => rfl
  | succ n ih => rw [State.fillBytes_succ, State.storeByte_responses, ih]

@[simp] theorem State.storeWord_romLoaded (s : State) (a : Int) (w : Word) :
    (s.storeWord a w).romLoaded = s.romLoaded := by simp [State.storeWord]
@[simp] theorem State.storeWord_textMode (s : State) (a : Int) (w : Word) :
    (s.storeWord a w).textMode = s.textMode := by simp [State.storeWord]
@[simp] theorem State.storeWord_commands (s : State) (a : Int) (w : Word) :
    (s.storeWord a w).commands = s.commands := by simp [State.storeWord]
@[simp] theorem State.storeWord_responses (s : State) (a : Int) (w : Word) :
    (s.storeWord a w).responses = s.responses := by simp [State.storeWord]

@[simp] theorem State.writeByte_romLoaded (s : State) (a v : Int) :
    (s.writeByte a v).romLoaded = s.romLoaded := by simp [State.writeByte]
@[simp] theorem State.writeByte_textMode (s : State) (a v : Int) :
    (s.writeByte a v).textMode = s.textMode := by simp [State.writeByte]
@[simp] theorem State.writeByte_commands (s : State) (a v : Int) :
    (s.writeByte a v).commands = s.commands := by simp [State.writeByte]
@[simp] theorem State.writeByte_responses (s : State) (a v : Int) :
    (s.writeByte a v).responses = s.responses := by simp [State.writeByte]

/-! ### Reads see the arrays only -/

/-- A byte read depends on the two arrays alone (R54). -/
theorem State.readByte_congr {s t : State} (hrom : t.rom = s.rom) (hram : t.ram = s.ram)
    (a : Int) : t.readByte a = s.readByte a := by
  simp only [State.readByte, hrom, hram]

@[simp] theorem State.respond_readByte (s : State) (r : Response) (a : Int) :
    (s.respond r).readByte a = s.readByte a := rfl
@[simp] theorem State.markLoaded_readByte (s : State) (a : Int) :
    s.markLoaded.readByte a = s.readByte a := rfl
@[simp] theorem State.storeTextMode_readByte (s : State) (m : Bool) (a : Int) :
    (s.storeTextMode m).readByte a = s.readByte a := rfl

end Sys2Proof.Machine
end

