-- ==== Sys2Proof/Laws/Ops.lean ====
section
/-! SUPPORT. What each shared operation can do, said once: the byte paths, runs of byte writes, the word
accesses, the whole-array operations, the views, and the invariant they all keep. -/

namespace Sys2Proof.Machine

/-! ### The byte paths -/

theorem writable_iff (a : Int) : writable a = true ↔ 0x3C00 ≤ reduceAddr a := by
  rw [writable, decide_eq_true_iff]

theorem State.readByte_low (s : State) {a : Int} (h : reduceAddr a < 0x4000) :
    s.readByte a = s.rom.read (reduceAddr a) := by
  simp [State.readByte, Config.ramBase, h]

theorem State.readByte_high (s : State) {a : Int} (h : 0x4000 ≤ reduceAddr a) :
    s.readByte a = s.ram.read (reduceAddr a - 0x4000) := by
  simp [State.readByte, Config.ramBase, show ¬ reduceAddr a < 0x4000 by omega]

/-- A read depends on the reduced address only (R51). -/
theorem State.readByte_reduce (s : State) {a b : Int} (h : reduceAddr a = reduceAddr b) :
    s.readByte a = s.readByte b := by
  simp only [State.readByte, h]

theorem State.storeByte_ram_eq (s : State) {a : Int} (v : Byte) (h : 0x4000 ≤ reduceAddr a) :
    s.storeByte a v = { s with ram := s.ram.write (reduceAddr a - 0x4000) v } := by
  simp [State.storeByte, region_ram h, Config.ramBase]

theorem State.storeByte_video_eq (s : State) {a : Int} (v : Byte) (h : 0x3C00 ≤ reduceAddr a)
    (h' : reduceAddr a ≤ 0x3FFF) :
    s.storeByte a v = { s with rom := s.rom.write (reduceAddr a) v } := by
  simp [State.storeByte, region_video h h']

theorem State.storeByte_protected_eq (s : State) {a : Int} (v : Byte)
    (h : reduceAddr a < 0x3C00) : s.storeByte a v = s := by
  simp [State.storeByte, region_protected h]

/-- The write path says: the byte at the written address where the write takes effect, every other byte
as before (R54, R55). -/
theorem State.readByte_storeByte (s : State) (a : Int) (v : Byte) (b : Int) :
    (s.storeByte a v).readByte b
      = if reduceAddr b = reduceAddr a ∧ writable a = true then v else s.readByte b := by
  simp only [writable_iff]
  rcases Nat.lt_or_ge (reduceAddr a) 0x3C00 with h | h
  · rw [s.storeByte_protected_eq v h, if_neg (by omega)]
  · rcases Nat.lt_or_ge (reduceAddr a) 0x4000 with h' | h'
    · rw [s.storeByte_video_eq v h (by omega)]
      rcases Nat.lt_or_ge (reduceAddr b) 0x4000 with hb | hb
      · rw [State.readByte_low _ hb, State.readByte_low _ hb, Memory.read_write]
        simp only [h, and_true, eq_comm]
      · rw [State.readByte_high _ hb, State.readByte_high _ hb, if_neg (by omega)]
    · rw [s.storeByte_ram_eq v h']
      rcases Nat.lt_or_ge (reduceAddr b) 0x4000 with hb | hb
      · rw [State.readByte_low _ hb, State.readByte_low _ hb, if_neg (by omega)]
      · rw [State.readByte_high _ hb, State.readByte_high _ hb, Memory.read_write]
        simp only [h, and_true]
        by_cases e : reduceAddr b = reduceAddr a
        · simp [e]
        · simp [e, show ¬ reduceAddr a - 0x4000 = reduceAddr b - 0x4000 by omega]

/-- Two byte writes at the same address: the second one counts (R63). -/
theorem State.readByte_storeByte_self (s : State) {a : Int} (v : Byte) (h : writable a = true) :
    (s.storeByte a v).readByte a = v := by
  rw [s.readByte_storeByte, if_pos ⟨rfl, h⟩]

/-- The index of the last byte of a run of `n` that goes to the address `k` past its base: a run longer
than the address space comes round again and the later byte wins (R126 case (e)). -/
def lastIndex (n k : Nat) : Nat := k + 65536 * ((n - 1 - k) / 65536)

theorem lastIndex_of_le {n k : Nat} (h : n ≤ 65536) : lastIndex n k = k := by
  simp only [lastIndex]; omega

/-- A run of byte writes puts its last byte for an address there, where that is writable, and leaves every
other byte (R126, R170). -/
theorem State.readByte_storeBytes (s : State) (base : Int) (d : List Byte) (b : Int) :
    (s.storeBytes base d).readByte b
      = if reduceAddr (b - base) < d.length ∧ writable b = true
        then d.getD (lastIndex d.length (reduceAddr (b - base))) 0 else s.readByte b := by
  induction d generalizing s base with
  | nil => simp
  | cons x xs ih =>
    rw [State.storeBytes_cons, ih, s.readByte_storeByte, List.length_cons]
    have h0 := reduceAddr_eq (b - base)
    have h1 := reduceAddr_eq (b - (base + 1))
    have h2 := reduceAddr_eq b
    have h3 := reduceAddr_eq base
    rcases Nat.eq_zero_or_pos (reduceAddr (b - base)) with hz | hp
    · have e : reduceAddr b = reduceAddr base := by omega
      have w : writable base = writable b := by simp only [writable, e]
      obtain ⟨m, hm⟩ : ∃ m : Nat, m = 65535 := ⟨_, rfl⟩
      have k : reduceAddr (b - (base + 1)) = m := by omega
      rw [hz, k, w]
      by_cases hl : m < xs.length
      · have : lastIndex (xs.length + 1) 0 = lastIndex xs.length m + 1 := by
          simp only [lastIndex]; omega
        by_cases wb : writable b = true <;> simp [hl, e, this, wb]
      · have : lastIndex (xs.length + 1) 0 = 0 := lastIndex_of_le (by omega)
        simp [hl, e, this]
    · have e : reduceAddr (b - base) = reduceAddr (b - (base + 1)) + 1 := by omega
      have n : reduceAddr b ≠ reduceAddr base := by omega
      have l : lastIndex (xs.length + 1) (reduceAddr (b - (base + 1)) + 1)
          = lastIndex xs.length (reduceAddr (b - (base + 1))) + 1 := by
        simp only [lastIndex]; omega
      simp [e, n, l]

/-- A fill puts its byte at each of its addresses where that is writable, and leaves every other byte
(R171). -/
theorem State.readByte_fillBytes (s : State) (base : Int) (v : Byte) (n : Nat) (b : Int) :
    (s.fillBytes base v n).readByte b
      = if reduceAddr (b - base) < n ∧ writable b = true then v else s.readByte b := by
  induction n with
  | zero => simp
  | succ n ih =>
    rw [State.fillBytes_succ, State.readByte_storeByte, ih]
    have h0 := reduceAddr_eq (b - base)
    have h1 := reduceAddr_eq b
    have h2 := reduceAddr_eq (base + n)
    by_cases e : reduceAddr b = reduceAddr (base + n)
    · have w : writable (base + n) = writable b := by simp only [writable, e]
      have l : reduceAddr (b - base) < n + 1 := by omega
      by_cases wb : writable b = true <;> simp [e, w, l, wb]
    · have l : reduceAddr (b - base) < n + 1 ↔ reduceAddr (b - base) < n := by omega
      simp [e, l]

/-- A word write is two byte writes, each decided on its own (R60). -/
theorem State.readByte_storeWord (s : State) (a : Int) (w : Word) (b : Int) :
    (s.storeWord a w).readByte b
      = if reduceAddr b = reduceAddr (a + 1) ∧ writable (a + 1) = true then highByte w
        else if reduceAddr b = reduceAddr a ∧ writable a = true then lowByte w
        else s.readByte b := by
  simp only [State.storeWord, State.readByte_storeByte]

/-- The two bytes of a word are at distinct addresses (R64). -/
theorem reduceAddr_succ_ne (a : Int) : reduceAddr (a + 1) ≠ reduceAddr a := by
  have := reduceAddr_eq a; have := reduceAddr_eq (a + 1); omega

/-! ### Whole arrays -/

theorem State.readByte_zeroRAM (s : State) (b : Int) :
    s.zeroRAM.readByte b = if 0x4000 ≤ reduceAddr b then 0 else s.readByte b := by
  rcases Nat.lt_or_ge (reduceAddr b) 0x4000 with hb | hb
  · rw [State.readByte_low _ hb, State.readByte_low _ hb, if_neg (by omega)]; rfl
  · rw [State.readByte_high _ hb, if_pos hb]; rfl

theorem State.readByte_installROM (s : State) (d : List Byte) (b : Int) :
    (s.installROM d).readByte b
      = if reduceAddr b < 0x4000 then d.getD (reduceAddr b) 0 else s.readByte b := by
  rcases Nat.lt_or_ge (reduceAddr b) 0x4000 with hb | hb
  · rw [State.readByte_low _ hb, if_pos hb, State.installROM_rom, Memory.read_ofBytes]
  · rw [State.readByte_high _ hb, State.readByte_high _ hb, if_neg (by omega)]; rfl

/-! ### The invariant -/

theorem State.wf_iff (s : State) : s.wf = true ↔
    s.rom.wf = true ∧ s.rom.within 16384 = true ∧ s.ram.wf = true ∧ s.ram.within 49152 = true := by
  simp only [State.wf, Bool.and_eq_true, and_assoc]

theorem State.wf_congr {s t : State} (hrom : t.rom = s.rom) (hram : t.ram = s.ram) :
    t.wf = s.wf := by
  simp only [State.wf, hrom, hram]

theorem State.wf_storeByte {s : State} (h : s.wf = true) (a : Int) (v : Byte) :
    (s.storeByte a v).wf = true := by
  obtain ⟨h1, h2, h3, h4⟩ := s.wf_iff.1 h
  have hlt := reduceAddr_lt a
  rcases Nat.lt_or_ge (reduceAddr a) 0x3C00 with hp | hp
  · rw [s.storeByte_protected_eq v hp]; exact h
  · rcases Nat.lt_or_ge (reduceAddr a) 0x4000 with hv | hv
    · rw [s.storeByte_video_eq v hp (by omega)]
      exact (State.wf_iff _).2
        ⟨Memory.wf_write h1 _ _, Memory.within_write h2 (by omega) _, h3, h4⟩
    · rw [s.storeByte_ram_eq v hv]
      exact (State.wf_iff _).2
        ⟨h1, h2, Memory.wf_write h3 _ _, Memory.within_write h4 (by omega) _⟩

theorem State.wf_storeBytes {s : State} (h : s.wf = true) (a : Int) (d : List Byte) :
    (s.storeBytes a d).wf = true := by
  induction d generalizing s a with
  | nil => exact h
  | cons b bs ih => exact ih (State.wf_storeByte h a b) _

theorem State.wf_fillBytes {s : State} (h : s.wf = true) (a : Int) (v : Byte) (n : Nat) :
    (s.fillBytes a v n).wf = true := by
  induction n with
  | zero => exact h
  | succ n ih => exact State.wf_storeByte ih _ _

theorem State.wf_storeWord {s : State} (h : s.wf = true) (a : Int) (w : Word) :
    (s.storeWord a w).wf = true :=
  State.wf_storeByte (State.wf_storeByte h _ _) _ _

theorem State.wf_installROM {s : State} (h : s.wf = true) {d : List Byte}
    (hd : d.length ≤ 16384) : (s.installROM d).wf = true := by
  obtain ⟨-, -, h3, h4⟩ := s.wf_iff.1 h
  exact (State.wf_iff _).2 ⟨Memory.wf_ofBytes d, Memory.within_ofBytes hd, h3, h4⟩

theorem State.wf_zeroRAM {s : State} (h : s.wf = true) : s.zeroRAM.wf = true := by
  obtain ⟨h1, h2, -, -⟩ := s.wf_iff.1 h
  exact (State.wf_iff _).2 ⟨h1, h2, Memory.wf_zeroFilled, Memory.within_zeroFilled _⟩

@[simp] theorem State.wf_respond (s : State) (r : Response) : (s.respond r).wf = s.wf := rfl
@[simp] theorem State.wf_markLoaded (s : State) : s.markLoaded.wf = s.wf := rfl
@[simp] theorem State.wf_storeTextMode (s : State) (m : Bool) :
    (s.storeTextMode m).wf = s.wf := rfl

/-- States that meet the invariant and read alike have equal arrays. -/
theorem State.arrays_ext {s t : State} (hs : s.wf = true) (ht : t.wf = true)
    (h : ∀ a : Nat, a < 65536 → s.readByte a = t.readByte a) : s.rom = t.rom ∧ s.ram = t.ram := by
  obtain ⟨h1, h2, h3, h4⟩ := s.wf_iff.1 hs
  obtain ⟨k1, k2, k3, k4⟩ := t.wf_iff.1 ht
  refine ⟨Memory.ext h1 k1 fun i => ?_, Memory.ext h3 k3 fun i => ?_⟩
  · rcases Nat.lt_or_ge i 16384 with hi | hi
    · have hr : reduceAddr (i : Int) = i := reduceAddr_natCast (by omega)
      have := h i (by omega)
      rwa [State.readByte_low _ (by omega), State.readByte_low _ (by omega), hr] at this
    · rw [Memory.read_of_within h2 hi, Memory.read_of_within k2 hi]
  · rcases Nat.lt_or_ge i 49152 with hi | hi
    · have hr : reduceAddr ((i + 0x4000 : Nat) : Int) = i + 0x4000 := reduceAddr_natCast (by omega)
      have := h (i + 0x4000) (by omega)
      rwa [State.readByte_high _ (by omega), State.readByte_high _ (by omega), hr,
        Nat.add_sub_cancel] at this
    · rw [Memory.read_of_within h4 hi, Memory.read_of_within k4 hi]

/-! ### The views -/

@[simp] theorem State.memoryView_length (s : State) : s.memoryView.length = 65536 := by
  rw [State.memoryView, List.length_map, List.length_range]

theorem State.memoryView_getElem? (s : State) {k : Nat} (h : k < 65536) :
    s.memoryView[k]? = some (s.readByte k) := by
  rw [State.memoryView, List.getElem?_map,
    (show (List.range Config.totalSize)[k]? = some (k) from List.getElem?_range h)]; rfl

@[simp] theorem State.screen_length (s : State) : s.screen.length = 1024 := by
  rw [State.screen, List.length_map, List.length_range]

theorem State.screen_getElem? (s : State) {r c : Nat} (hr : r < 16) (hc : c < 64) :
    s.screen[r * 64 + c]? = some (s.cell r c) := by
  have h : r * 64 + c < 1024 := by omega
  rw [State.screen, List.getElem?_map,
    (show (List.range Config.videoSize)[r * 64 + c]? = some (r * 64 + c) from List.getElem?_range h),
    Option.map_some, Config.columns, show (r * 64 + c) / 64 = r by omega,
    show (r * 64 + c) % 64 = c by omega]

@[simp] theorem State.canvas_length (s : State) : s.canvas.length = 6144 := by
  rw [State.canvas, List.length_map, List.length_range]; rfl

theorem State.canvas_getElem? (s : State) {x y : Nat} (hx : x < 128) (hy : y < 48) :
    s.canvas[y * 128 + x]? = some (flagByte (s.pixel x y)) := by
  have h : y * 128 + x < 6144 := by omega
  rw [State.canvas, List.getElem?_map,
    (show (List.range (Config.graphicsHeight * Config.graphicsWidth))[y * 128 + x]?
      = some (y * 128 + x) from List.getElem?_range h), Option.map_some, Config.graphicsWidth,
    show (y * 128 + x) / 128 = y by omega,
    show (y * 128 + x) % 128 = x by omega]

@[simp] theorem State.frame_length (s : State) : s.frame.length = 12288 := by
  rw [State.frame, List.length_map, List.length_range]; rfl

theorem State.frame_getElem? (s : State) {py c : Nat} (hy : py < 192) (hc : c < 64) :
    s.frame[py * 64 + c]? = some (packLine fun k => s.framePixel py (8 * c + k)) := by
  have h : py * 64 + c < 12288 := by omega
  rw [State.frame, List.getElem?_map,
    (show (List.range (Config.rows * Config.charHeight * Config.columns))[py * 64 + c]?
      = some (py * 64 + c) from List.getElem?_range h),
    Option.map_some, Config.columns, Config.charWidth, show (py * 64 + c) / 64 = py by omega,
    show (py * 64 + c) % 64 = c by omega]

end Sys2Proof.Machine
end

