-- ==== Sys2Proof/Laws/Exec.lean ====
section
/-! SUPPORT. What any operation can do to the interface, said once for all of them: it answers with a next
state, which is a state with the same queue and the same earlier responses, and one response more. -/

namespace Sys2Proof.Machine

/-- The state `t` is `s` but for the block's own state: nothing was taken from the caller or given to it. -/
def SameInterface (s t : State) : Prop := t.commands = s.commands ∧ t.responses = s.responses

theorem SameInterface.rfl (s : State) : SameInterface s s := ⟨Eq.refl _, Eq.refl _⟩

theorem sameInterface_storeByte (s : State) (a : Int) (v : Byte) :
    SameInterface s (s.storeByte a v) := ⟨Eq.refl _, Eq.refl _⟩

theorem sameInterface_storeBytes (s : State) (a : Int) (d : List Byte) :
    SameInterface s (s.storeBytes a d) := ⟨State.storeBytes_commands .., State.storeBytes_responses ..⟩

theorem sameInterface_fillBytes (s : State) (a : Int) (v : Byte) (n : Nat) :
    SameInterface s (s.fillBytes a v n) :=
  ⟨State.fillBytes_commands .., State.fillBytes_responses ..⟩

theorem sameInterface_storeWord (s : State) (a : Int) (w : Word) :
    SameInterface s (s.storeWord a w) := ⟨Eq.refl _, Eq.refl _⟩

/-- `clearScreen` runs one fill. The filled state is named, so that no proof evaluates the 1024 writes. -/
theorem exec_clearScreen (s : State) : ∃ u : State,
    exec .clearScreen s = .next (u.respond (Response.okay 0 [])) ∧
      u = s.fillBytes (Config.videoStart : Int) 0x20 Config.videoSize :=
  ⟨_, Eq.refl _, Eq.refl _⟩

/-- Every operation ends in one of two ways: it answers OK from a state with the same interface, or it
fails from the state it began in, and then it is a `loadROM` or a `loadProgram` (R210, R217). -/
theorem exec_ends (i : Instr) (s : State) :
    (∃ (u : State) (v : Word) (p : List Byte),
      exec i s = .next (u.respond (Response.okay v p)) ∧ SameInterface s u) ∨
    ((∃ data, i = .loadROM data) ∧ exec i s = .next (s.respond (Response.failure .invalidROMSize))) ∨
    ((∃ data address, i = .loadProgram data address) ∧
      (exec i s = .next (s.respond (Response.failure .programTargetsROM)) ∨
        exec i s = .next (s.respond (Response.failure .programTooLarge)))) := by
  cases i with
  | loadROM data =>
    simp only [exec, execLoadROM]
    split
    · exact .inl ⟨_, _, _, Eq.refl _, Eq.refl _, Eq.refl _⟩
    · split
      · exact .inl ⟨_, _, _, Eq.refl _, Eq.refl _, Eq.refl _⟩
      · exact .inr (.inl ⟨⟨_, Eq.refl _⟩, Eq.refl _⟩)
  | loadProgram data address =>
    simp only [exec, execLoadProgram]
    split
    · exact .inl ⟨_, _, _, Eq.refl _, SameInterface.rfl s⟩
    · split
      · exact .inr (.inr ⟨⟨_, _, Eq.refl _⟩, .inl (Eq.refl _)⟩)
      · split
        · exact .inr (.inr ⟨⟨_, _, Eq.refl _⟩, .inr (Eq.refl _)⟩)
        · exact .inl ⟨_, _, _, Eq.refl _, sameInterface_storeBytes ..⟩
  | writeByte address value => exact .inl ⟨_, _, _, Eq.refl _, sameInterface_storeByte ..⟩
  | writeWord address value => exact .inl ⟨_, _, _, Eq.refl _, sameInterface_storeWord ..⟩
  | clearRAM => exact .inl ⟨s.zeroRAM, _, _, Eq.refl _, Eq.refl _, Eq.refl _⟩
  | setPixel x y =>
    simp only [exec, execSetPixel]
    split
    · exact .inl ⟨_, _, _, Eq.refl _, sameInterface_storeByte ..⟩
    · exact .inl ⟨_, _, _, Eq.refl _, SameInterface.rfl s⟩
  | resetPixel x y =>
    simp only [exec, execResetPixel]
    split
    · split
      · exact .inl ⟨_, _, _, Eq.refl _, sameInterface_storeByte ..⟩
      · exact .inl ⟨_, _, _, Eq.refl _, SameInterface.rfl s⟩
    · exact .inl ⟨_, _, _, Eq.refl _, SameInterface.rfl s⟩
  | pointPixel x y =>
    simp only [exec, execPointPixel]
    split <;> exact .inl ⟨_, _, _, Eq.refl _, SameInterface.rfl s⟩
  | writeString text row col => exact .inl ⟨_, _, _, Eq.refl _, sameInterface_storeBytes ..⟩
  | clearScreen =>
    obtain ⟨u, h, hu⟩ := exec_clearScreen s
    exact .inl ⟨u, _, _, h, hu ▸ sameInterface_fillBytes ..⟩
  | setTextMode mode => exact .inl ⟨s.storeTextMode mode, _, _, Eq.refl _, Eq.refl _, Eq.refl _⟩
  | getStats => exact .inl ⟨_, _, _, Eq.refl _, SameInterface.rfl s⟩
  | readByte address => exact .inl ⟨_, _, _, Eq.refl _, SameInterface.rfl s⟩
  | readWord address => exact .inl ⟨_, _, _, Eq.refl _, SameInterface.rfl s⟩
  | getMemoryView => exact .inl ⟨_, _, _, Eq.refl _, SameInterface.rfl s⟩
  | getScreenSnapshot => exact .inl ⟨_, _, _, Eq.refl _, SameInterface.rfl s⟩
  | getGraphicsSnapshot => exact .inl ⟨_, _, _, Eq.refl _, SameInterface.rfl s⟩
  | getTextMode => exact .inl ⟨_, _, _, Eq.refl _, SameInterface.rfl s⟩
  | getGlyph code => exact .inl ⟨_, _, _, Eq.refl _, SameInterface.rfl s⟩
  | renderFrame => exact .inl ⟨_, _, _, Eq.refl _, SameInterface.rfl s⟩

/-- An operation always answers, once (R91, R250). -/
theorem exec_answers (i : Instr) (s : State) :
    ∃ (t : State) (r : Response), exec i s = .next t ∧ Answered s t r := by
  rcases exec_ends i s with ⟨u, v, p, h, hc, hr⟩ | ⟨-, h⟩ | ⟨-, h | h⟩
  · exact ⟨_, _, h, by rw [State.respond_responses, hr], by rw [State.respond_commands, hc]⟩
  · exact ⟨_, _, h, Eq.refl _, Eq.refl _⟩
  · exact ⟨_, _, h, Eq.refl _, Eq.refl _⟩
  · exact ⟨_, _, h, Eq.refl _, Eq.refl _⟩

/-- One step of a run. -/
theorem run_succ (M : Host.Core) {s s' : M.State} {n : Nat} (h : M.step s = .next s') :
    M.run (n + 1) s = M.run n s' := by
  simp only [Host.Core.run, h]

/-- The response given is the one that stands last. -/
theorem State.respond_eq {s : State} {r r' : Response} {old : List Response}
    (ho : s.responses = old) (h : (s.respond r).responses = old ++ [r']) : r = r' := by
  subst ho
  simpa using h

/-- The response of a step is determined: it is the last one. -/
theorem Answered.unique {s t : State} {r r' : Response} (h : Answered s t r)
    (h' : t.responses = s.responses ++ [r']) : r = r' := by
  have := h.1.symm.trans h'
  simpa using this

end Sys2Proof.Machine
end

