-- ==== Sys2Proof/Laws/PerInstr.lean ====
section
/-! SUPPORT. The family `LegalWord`: the encoder's word of every operation the port can carry passes the
decoder's mask and payload tests of its own row (spec 30_encoding.md R82, R86, R88). -/

namespace Sys2Proof.Laws

/-- The word of an encoded operation is a word of its row, matches the row's mask, and asks for the
payload it carries. -/
def LegalWord.Statement (i : Instr) : Prop :=
  wellFormed i = true →
    fieldOp (encode i).word = i.opcode.code ∧
    (encode i).word &&& i.opcode.format.mask = i.opcode.matchWord ∧
    (encode i).payload.length = payloadLength i.opcode (encode i).word

/-- The masks of a format hide exactly the operand fields: the one computation behind the family. -/
theorem legal_of_masked (op : Opcode) (a b c : Word) (p : List Byte)
    (ha : a &&& fieldA op.format.mask = 0) (hb : b &&& fieldB op.format.mask = 0)
    (hc : c &&& fieldC op.format.mask = 0)
    (hp : p.length = payloadLength op (commandWord op a b c)) :
    fieldOp (commandWord op a b c) = op.code ∧
      commandWord op a b c &&& op.format.mask = op.matchWord ∧
      p.length = payloadLength op (commandWord op a b c) := by
  refine ⟨fieldOp_commandWord .., ?_, hp⟩
  rw [commandWord_and_mask, ha, hb, hc, Opcode.matchWord_eq]

/-- LEN in the field C asks for the payload it was made from (R86). -/
theorem payload_asked (op : Opcode) (a b : Word) {d : List Byte} (hd : fitsLength d = true)
    (hop : op.format.hasPayload = true) :
    d.length = payloadLength op (commandWord op a b (lengthField d)) := by
  rw [payloadLength, if_pos hop, fieldC_commandWord, lengthField_of_fits hd]

/-- A format without an operand in a field leaves that field zero. -/
theorem zero_masked (m : Word) : (0 : Word) &&& m = 0 := BitVec.zero_and

/-- A field that carries a whole operand is not masked. -/
theorem masked_zero (w : Word) : w &&& (0 : Word) = 0 := BitVec.and_zero

theorem LegalWord.getStats :
    LegalWord.Statement (.getStats) := fun _ =>
  legal_of_masked .getStats _ _ _ _ (zero_masked _) (zero_masked _) (zero_masked _) rfl

theorem LegalWord.loadROM (data : List Byte) :
    LegalWord.Statement (.loadROM data) := fun h =>
  legal_of_masked .loadROM _ _ _ _ (zero_masked _) (zero_masked _) (masked_zero _)
    (payload_asked _ _ _ h rfl)

theorem LegalWord.readByte (address : Int) :
    LegalWord.Statement (.readByte address) := fun _ =>
  legal_of_masked .readByte _ _ _ _ (masked_zero _) (zero_masked _) (zero_masked _) rfl

theorem LegalWord.writeByte (address : Int) (value : Int) :
    LegalWord.Statement (.writeByte address value) := fun _ =>
  legal_of_masked .writeByte _ _ _ _ (masked_zero _) (masked_zero _) (zero_masked _) rfl

theorem LegalWord.readWord (address : Int) :
    LegalWord.Statement (.readWord address) := fun _ =>
  legal_of_masked .readWord _ _ _ _ (masked_zero _) (zero_masked _) (zero_masked _) rfl

theorem LegalWord.writeWord (address : Int) (value : Int) :
    LegalWord.Statement (.writeWord address value) := fun _ =>
  legal_of_masked .writeWord _ _ _ _ (masked_zero _) (masked_zero _) (zero_masked _) rfl

theorem LegalWord.loadProgram (data : List Byte) (address : Int) :
    LegalWord.Statement (.loadProgram data address) := fun h =>
  legal_of_masked .loadProgram _ _ _ _ (masked_zero _) (zero_masked _) (masked_zero _)
    (payload_asked _ _ _ (Bool.and_eq_true_iff.1 h).1 rfl)

theorem LegalWord.clearRAM :
    LegalWord.Statement (.clearRAM) := fun _ =>
  legal_of_masked .clearRAM _ _ _ _ (zero_masked _) (zero_masked _) (zero_masked _) rfl

theorem LegalWord.getMemoryView :
    LegalWord.Statement (.getMemoryView) := fun _ =>
  legal_of_masked .getMemoryView _ _ _ _ (zero_masked _) (zero_masked _) (zero_masked _) rfl

theorem LegalWord.setPixel (x : Int) (y : Int) :
    LegalWord.Statement (.setPixel x y) := fun _ =>
  legal_of_masked .setPixel _ _ _ _ (masked_zero _) (masked_zero _) (zero_masked _) rfl

theorem LegalWord.resetPixel (x : Int) (y : Int) :
    LegalWord.Statement (.resetPixel x y) := fun _ =>
  legal_of_masked .resetPixel _ _ _ _ (masked_zero _) (masked_zero _) (zero_masked _) rfl

theorem LegalWord.pointPixel (x : Int) (y : Int) :
    LegalWord.Statement (.pointPixel x y) := fun _ =>
  legal_of_masked .pointPixel _ _ _ _ (masked_zero _) (masked_zero _) (zero_masked _) rfl

theorem LegalWord.writeString (text : List Byte) (row : Int) (col : Int) :
    LegalWord.Statement (.writeString text row col) := fun h =>
  legal_of_masked .writeString _ _ _ _ (masked_zero _) (masked_zero _) (masked_zero _)
    (payload_asked _ _ _ (Bool.and_eq_true_iff.1 (Bool.and_eq_true_iff.1 h).1).1 rfl)

theorem LegalWord.clearScreen :
    LegalWord.Statement (.clearScreen) := fun _ =>
  legal_of_masked .clearScreen _ _ _ _ (zero_masked _) (zero_masked _) (zero_masked _) rfl

theorem LegalWord.getScreenSnapshot :
    LegalWord.Statement (.getScreenSnapshot) := fun _ =>
  legal_of_masked .getScreenSnapshot _ _ _ _ (zero_masked _) (zero_masked _) (zero_masked _) rfl

theorem LegalWord.getGraphicsSnapshot :
    LegalWord.Statement (.getGraphicsSnapshot) := fun _ =>
  legal_of_masked .getGraphicsSnapshot _ _ _ _ (zero_masked _) (zero_masked _) (zero_masked _) rfl

theorem LegalWord.setTextMode (mode : Bool) :
    LegalWord.Statement (.setTextMode mode) := fun _ =>
  legal_of_masked .setTextMode _ _ _ _ (zero_masked _) (zero_masked _) (by cases mode <;> rfl) rfl

theorem LegalWord.getTextMode :
    LegalWord.Statement (.getTextMode) := fun _ =>
  legal_of_masked .getTextMode _ _ _ _ (zero_masked _) (zero_masked _) (zero_masked _) rfl

set_option maxRecDepth 8000 in
theorem LegalWord.getGlyph (code : Byte) :
    LegalWord.Statement (.getGlyph code) := fun _ =>
  legal_of_masked .getGlyph _ _ _ _ (zero_masked _) (zero_masked _) (by revert code; decide) rfl

theorem LegalWord.renderFrame :
    LegalWord.Statement (.renderFrame) := fun _ =>
  legal_of_masked .renderFrame _ _ _ _ (zero_masked _) (zero_masked _) (zero_masked _) rfl

end Sys2Proof.Laws
end

