-- ==== Sys2Proof/Machine/Assembler.lean ====
section
/-! DEFINITION. The assembler syntax of operations (spec 30_encoding.md R95, R96): from one written line to the
operation it stands for, with the default load address applied. Nothing of the machine depends on it; the
printed form is `Instr.written` of Decode.lean (log entry 9). -/

namespace Sys2Proof.Assembler

/-- The marks of a written line (R95). -/
inductive Token where
  | name (letters : List Char)
  | number (n : Int)
  | quoted (text : List Byte)
  | comma
  | openBracket
  | closeBracket
  | openParen
  | closeParen
  deriving DecidableEq, Repr

/-- The value of a digit in a base up to 16. -/
def digit (base : Nat) (c : Char) : Option Nat :=
  let v := if c.isDigit then c.toNat - 48
    else if 97 ≤ c.toNat ∧ c.toNat ≤ 102 then c.toNat - 87
    else if 65 ≤ c.toNat ∧ c.toNat ≤ 70 then c.toNat - 55
    else 16
  if v < base then some v else none

/-- The value of a row of digits read after `acc`. -/
def digits (base acc : Nat) : List Char → Option Nat
  | [] => some acc
  | c :: cs => (digit base c).bind fun d => digits base (acc * base + d) cs

/-- A number without sign: decimal, or hexadecimal after `0x` (small `x`; leading zeros allowed: DESIGN CHOICE, log
entry 13). -/
def natural : List Char → Option Nat
  | [] => none
  | ['0', 'x'] => none
  | '0' :: 'x' :: cs => digits 16 0 cs
  | cs => digits 10 0 cs

/-- A number, with a leading `-` where it is negative. -/
def integer : List Char → Option Int
  | '-' :: cs => (natural cs).map fun n => -(n : Int)
  | cs => (natural cs).map fun n => (n : Int)

/-- The characters of a quoted text up to its closing quote, each with a code 0x20 to 0x7E standing for that
code, and what follows the quote. DESIGN CHOICE (log entry 12): R95 allows the character 0x22 and says nothing of
how a quote is written inside a text; there is no escape here and the first quote closes the text. A text with a
quote in it is written as a byte list. -/
def quotedText : List Char → Option (List Byte × List Char)
  | [] => none
  | '"' :: cs => some ([], cs)
  | c :: cs =>
    if 0x20 ≤ c.toNat ∧ c.toNat ≤ 0x7E then
      (quotedText cs).map fun r => (BitVec.ofNat 8 c.toNat :: r.1, r.2)
    else none

/-- A character of a name or a number. -/
def isWordChar (c : Char) : Bool := c.isAlphanum || c == '-'

/-- The first mark of a line and what follows it; `none` where no mark begins there. -/
def firstToken : List Char → Option (Token × List Char)
  | [] => none
  | ',' :: cs => some (.comma, cs)
  | '[' :: cs => some (.openBracket, cs)
  | ']' :: cs => some (.closeBracket, cs)
  | '(' :: cs => some (.openParen, cs)
  | ')' :: cs => some (.closeParen, cs)
  | '"' :: cs => (quotedText cs).map fun r => (.quoted r.1, r.2)
  | c :: cs =>
    let word := (c :: cs).takeWhile isWordChar
    let rest := (c :: cs).dropWhile isWordChar
    if c.isAlpha then some (.name word, rest)
    else (integer word).map fun n => (.number n, rest)

/-- The marks of a line; a `;` outside a quoted text starts a comment. The first argument bounds the number of
characters. DESIGN CHOICE (log entry 13): R95 does not say where a blank must stand; blanks may stand before,
between and after marks and none is needed where a mark ends without one, so not between a mnemonic and a `[` or a
quoted text either. A `;` inside a quoted text is a character of it. -/
def tokens : Nat → List Char → Option (List Token)
  | _, [] => some []
  | 0, _ :: _ => none
  | n + 1, c :: cs =>
    if c = ' ' ∨ c = '\t' then tokens n cs
    else if c = ';' then some []
    else (firstToken (c :: cs)).bind fun r => (tokens n r.2).map fun ts => r.1 :: ts

/-- A number that is a byte. DESIGN CHOICE (log entry 12): R95 does not say what a number outside 0 to 255 stands
for where a byte is asked for; the line is then no operation. -/
def byte? (n : Int) : Option Byte :=
  if 0 ≤ n ∧ n ≤ 255 then some (BitVec.ofInt 8 n) else none

/-- The rest of a bracketed byte list, after its opening bracket or after a comma. -/
def byteList : List Token → Option (List Byte × List Token)
  | .number n :: .closeBracket :: ts => (byte? n).map fun b => ([b], ts)
  | .number n :: .comma :: ts =>
    (byte? n).bind fun b => (byteList ts).map fun r => (b :: r.1, r.2)
  | _ => none

/-- The operand `data`: a bracketed byte list, `zeros(n)` or `fill(n, v)`. -/
def dataOperand : List Token → Option (List Byte × List Token)
  | .openBracket :: .closeBracket :: ts => some ([], ts)
  | .openBracket :: ts => byteList ts
  | .name f :: .openParen :: .number n :: .closeParen :: ts =>
    if f = "zeros".toList ∧ 0 ≤ n then some (List.replicate n.toNat 0x00, ts) else none
  | .name f :: .openParen :: .number n :: .comma :: .number v :: .closeParen :: ts =>
    if f = "fill".toList ∧ 0 ≤ n then
      (byte? v).map fun b => (List.replicate n.toNat b, ts)
    else none
  | _ => none

/-- The operand `text`: a quoted string, or a byte list. DESIGN CHOICE (log entry 12): R95 gives `zeros(n)` and
`fill(n, v)` under `data` only; they are taken here too, as ways to write a byte list. -/
def textOperand : List Token → Option (List Byte × List Token)
  | .quoted t :: ts => some (t, ts)
  | ts => dataOperand ts

/-- The operand `mode`. -/
def modeOperand (letters : List Char) : Option Bool :=
  if letters = "true".toList then some true
  else if letters = "false".toList then some false
  else none

/-- The operation of a row from the marks of its operands, in the order of R95. -/
def operands : Opcode → List Token → Option Instr
  | .getStats, [] => some .getStats
  | .loadROM, ts => match dataOperand ts with
    | some (d, []) => some (.loadROM d)
    | _ => none
  | .readByte, [.number a] => some (.readByte a)
  | .writeByte, [.number a, .comma, .number v] => some (.writeByte a v)
  | .readWord, [.number a] => some (.readWord a)
  | .writeWord, [.number a, .comma, .number v] => some (.writeWord a v)
  | .loadProgram, ts => match dataOperand ts with
    | some (d, []) => some (loadProgramDefault d)
    | some (d, [.comma, .number a]) => some (.loadProgram d a)
    | _ => none
  | .clearRAM, [] => some .clearRAM
  | .getMemoryView, [] => some .getMemoryView
  | .setPixel, [.number x, .comma, .number y] => some (.setPixel x y)
  | .resetPixel, [.number x, .comma, .number y] => some (.resetPixel x y)
  | .pointPixel, [.number x, .comma, .number y] => some (.pointPixel x y)
  | .writeString, ts => match textOperand ts with
    | some (t, [.comma, .number r, .comma, .number c]) => some (.writeString t r c)
    | _ => none
  | .clearScreen, [] => some .clearScreen
  | .getScreenSnapshot, [] => some .getScreenSnapshot
  | .getGraphicsSnapshot, [] => some .getGraphicsSnapshot
  | .setTextMode, [.name m] => (modeOperand m).map .setTextMode
  | .getTextMode, [] => some .getTextMode
  | .getGlyph, [.number n] => (byte? n).map .getGlyph
  | .renderFrame, [] => some .renderFrame
  | _, _ => none

/-- The operation a written line stands for, if it is one (R95, R96). DESIGN CHOICE (log entry 13): a line holds one
operation and, but for a comment, nothing after it; an empty line stands for none. -/
def assemble (line : String) : Option Instr :=
  match tokens line.length line.toList with
  | some (.name m :: ts) =>
    (Opcode.all.find? fun op => op.mnemonic.toList == m).bind fun op => operands op ts
  | _ => none

end Sys2Proof.Assembler
end

