-- ==== Sys2Proof/Tests/Slice0.lean ====
section
/-! SUPPORT. Tests of the model. Expected values are those of spec 95_test_vectors.md (the source's examples S,
the derived vectors M, L, X, T, F, E and section 3.1) or of an operation rule's own example; the comment of
each test names its source. Then a witness for every obligation that has hypotheses, at the boundary values of
its clauses. -/

namespace Sys2Proof.Tests

open Sys2Proof.Machine

/-! ## Helpers -/

/-- The reset state with these bytes in `rom` and `ram` (index, byte), and one command waiting. -/
def waiting (rom ram : Memory) (w : CommandWord) (p : List Byte) : State :=
  { State.reset with rom := rom, ram := ram, commands := [⟨w, p⟩] }

/-- One step, and what is seen of the state after it. -/
def seen {α : Type} (s : State) (f : State → α) : Option α :=
  match step s with
  | .next t => some (f t)
  | .fault _ => none
  | .refused _ => none

/-- The answers of a step: response words and payloads. -/
def answers (t : State) : List (ResponseWord × List Byte) :=
  t.responses.map fun r => (r.word, r.payload)

/-! ## WellFormed refuses (00_scope.md R12; 30_encoding.md R83 to R86) -/

theorem smoke_readByte_negative : wellFormed (.readByte (-1)) = false := by decide
theorem smoke_readByte_wide : wellFormed (.readByte 65536) = false := by decide
theorem smoke_writeByte_address : wellFormed (.writeByte 65536 0) = false := by decide
theorem smoke_writeByte_value : wellFormed (.writeByte 0 65536) = false := by decide
theorem smoke_readWord : wellFormed (.readWord (-1)) = false := by decide
theorem smoke_writeWord_address : wellFormed (.writeWord (-1) 0) = false := by decide
theorem smoke_writeWord_value : wellFormed (.writeWord 0 (-1)) = false := by decide
theorem smoke_loadProgram_address : wellFormed (.loadProgram [] 65536) = false := by decide
theorem smoke_setPixel_x : wellFormed (.setPixel 32768 0) = false := by decide
theorem smoke_setPixel_y : wellFormed (.setPixel 0 (-32769)) = false := by decide
theorem smoke_resetPixel_x : wellFormed (.resetPixel (-32769) 0) = false := by decide
theorem smoke_resetPixel_y : wellFormed (.resetPixel 0 32768) = false := by decide
theorem smoke_pointPixel_x : wellFormed (.pointPixel 32768 0) = false := by decide
theorem smoke_pointPixel_y : wellFormed (.pointPixel 0 32768) = false := by decide
theorem smoke_writeString_row : wellFormed (.writeString [] 32768 0) = false := by decide
theorem smoke_writeString_col : wellFormed (.writeString [] 0 (-32769)) = false := by decide

/-- A payload one byte too long for LEN. -/
theorem smoke_length : fitsLength (List.replicate 65536 0x00) = false := by
  rw [fitsLength, List.length_replicate]; decide

theorem smoke_loadROM : wellFormed (.loadROM (List.replicate 65536 0x00)) = false := smoke_length

theorem smoke_loadProgram_data :
    wellFormed (.loadProgram (List.replicate 65536 0x00) 0x4200) = false := by
  rw [wellFormed, smoke_length]; rfl

theorem smoke_writeString_text :
    wellFormed (.writeString (List.replicate 65536 0x00) 0 0) = false := by
  rw [wellFormed, smoke_length]; rfl

/-! ## Decoding: words of 95_test_vectors.md section 3.1, written as {OP,RSV} A B C -/

theorem test_decode_getStats : decode ⟨0x0100_0000_0000_0000, []⟩ = .ok .getStats := by rfl
theorem test_decode_loadROM : decode ⟨0x0200_0000_0000_0000, []⟩ = .ok (.loadROM []) := by rfl
theorem test_decode_readByte :
    decode ⟨0x0300_4200_0000_0000, []⟩ = .ok (.readByte 0x4200) := by rfl
theorem test_decode_writeByte :
    decode ⟨0x0400_3C00_00BF_0000, []⟩ = .ok (.writeByte 0x3C00 191) := by rfl
theorem test_decode_readWord :
    decode ⟨0x0500_FFFF_0000_0000, []⟩ = .ok (.readWord 0xFFFF) := by rfl
theorem test_decode_writeWord :
    decode ⟨0x0600_4200_1234_0000, []⟩ = .ok (.writeWord 0x4200 0x1234) := by rfl
theorem test_decode_loadProgram : decode ⟨0x0700_4200_0000_0003, [0x3E, 0x42, 0x76]⟩
    = .ok (.loadProgram [0x3E, 0x42, 0x76] 0x4200) := by rfl
theorem test_decode_clearRAM : decode ⟨0x0800_0000_0000_0000, []⟩ = .ok .clearRAM := by rfl
theorem test_decode_getMemoryView :
    decode ⟨0x0900_0000_0000_0000, []⟩ = .ok .getMemoryView := by rfl
theorem test_decode_setPixel :
    decode ⟨0x1000_0000_FFFF_0000, []⟩ = .ok (.setPixel 0 (-1)) := by rfl
theorem test_decode_resetPixel :
    decode ⟨0x1100_0002_0000_0000, []⟩ = .ok (.resetPixel 2 0) := by rfl
theorem test_decode_pointPixel :
    decode ⟨0x1200_8000_7FFF_0000, []⟩ = .ok (.pointPixel (-32768) 32767) := by rfl
theorem test_decode_writeString : decode ⟨0x1300_0000_FFFF_0003, [0x41, 0x42, 0x43]⟩
    = .ok (.writeString [0x41, 0x42, 0x43] 0 (-1)) := by rfl
theorem test_decode_clearScreen : decode ⟨0x1400_0000_0000_0000, []⟩ = .ok .clearScreen := by rfl
theorem test_decode_getScreenSnapshot :
    decode ⟨0x1500_0000_0000_0000, []⟩ = .ok .getScreenSnapshot := by rfl
theorem test_decode_getGraphicsSnapshot :
    decode ⟨0x1600_0000_0000_0000, []⟩ = .ok .getGraphicsSnapshot := by rfl
theorem test_decode_setTextMode :
    decode ⟨0x1700_0000_0000_0001, []⟩ = .ok (.setTextMode true) := by rfl
theorem test_decode_getTextMode : decode ⟨0x1800_0000_0000_0000, []⟩ = .ok .getTextMode := by rfl
theorem test_decode_getGlyph :
    decode ⟨0x1900_0000_0000_00BF, []⟩ = .ok (.getGlyph 0xBF) := by rfl
theorem test_decode_renderFrame : decode ⟨0x1A00_0000_0000_0000, []⟩ = .ok .renderFrame := by rfl

/-- The payload of `loadROM zeros(14336)` is the operation's data (section 3.1). -/
theorem test_decode_loadROM_short : decode ⟨0x0200_0000_0000_3800, List.replicate 14336 0x00⟩
    = .ok (.loadROM (List.replicate 14336 0x00)) := by
  generalize h : List.replicate 14336 (0x00 : Byte) = d
  have hd : d.length = 14336 := by rw [← h, List.length_replicate]
  simp only [decode, show Opcode.ofCode? (fieldOp 0x0200_0000_0000_3800) = some .loadROM from rfl,
    show payloadLength .loadROM 0x0200_0000_0000_3800 = 14336 from rfl, hd]
  rfl

/-- The illegal words of section 3.1, in its order. -/
theorem test_illegal_op_00 : decode ⟨0x0000_0000_0000_0000, []⟩ = .error .unknownOpcode := by rfl
theorem test_illegal_op_0A : decode ⟨0x0A00_0000_0000_0000, []⟩ = .error .unknownOpcode := by rfl
theorem test_illegal_op_0F : decode ⟨0x0F00_0000_0000_0000, []⟩ = .error .unknownOpcode := by rfl
theorem test_illegal_op_1B : decode ⟨0x1B00_0000_0000_0000, []⟩ = .error .unknownOpcode := by rfl
theorem test_illegal_op_FF : decode ⟨0xFF00_0000_0000_0000, []⟩ = .error .unknownOpcode := by rfl
theorem test_illegal_rsv : decode ⟨0x0301_4200_0000_0000, []⟩ = .error .reservedField := by rfl
theorem test_illegal_readByte_b :
    decode ⟨0x0300_0001_0001_0000, []⟩ = .error .reservedField := by rfl
theorem test_illegal_readByte_c :
    decode ⟨0x0300_0001_0000_0001, []⟩ = .error .reservedField := by rfl
theorem test_illegal_getStats_c :
    decode ⟨0x0100_0000_0000_0001, []⟩ = .error .reservedField := by rfl
theorem test_illegal_writeByte_c :
    decode ⟨0x0400_4000_0001_0001, []⟩ = .error .reservedField := by rfl
theorem test_illegal_setPixel_c :
    decode ⟨0x1000_0001_0001_0001, []⟩ = .error .reservedField := by rfl
theorem test_illegal_loadProgram_b :
    decode ⟨0x0700_4200_0001_0003, [0x3E, 0x42, 0x76]⟩ = .error .reservedField := by rfl
theorem test_illegal_setTextMode :
    decode ⟨0x1700_0000_0000_0002, []⟩ = .error .reservedField := by rfl
theorem test_illegal_getGlyph :
    decode ⟨0x1900_0000_0000_0100, []⟩ = .error .reservedField := by rfl
theorem test_illegal_short_payload :
    decode ⟨0x0700_4200_0000_0003, [0x3E, 0x42]⟩ = .error .payloadLength := by rfl
theorem test_illegal_payload_without_format :
    decode ⟨0x0300_0000_0000_0000, [0x00]⟩ = .error .payloadLength := by rfl
theorem test_illegal_payload_len_zero :
    decode ⟨0x1300_0000_0000_0000, [0x48]⟩ = .error .payloadLength := by rfl

/-- `loadROM` with A not zero is illegal whatever the payload (section 3.1). -/
theorem test_illegal_loadROM_a (p : List Byte) :
    decode ⟨0x0200_0001_0000_3800, p⟩ = .error .reservedField := by
  simp only [decode, show Opcode.ofCode? (fieldOp 0x0200_0001_0000_3800) = some .loadROM from rfl]
  exact if_pos (by decide)

/-- The written forms of section 3.1, and the default load address (R96). -/
theorem test_written_writeByte : (Instr.writeByte 15360 191).written = "writeByte 15360, 191" := by
  decide
theorem test_default_address :
    loadProgramDefault [0x3E, 0x42, 0x76] = .loadProgram [0x3E, 0x42, 0x76] 0x4200 := by rfl

/-- Written lines of section 3.1 and of R95 stand for their operations; the default address is applied. The last
four lines are the model's own choices (log entries 12 and 13). -/
theorem test_assemble_writeByte :
    Assembler.assemble "writeByte 0x3C00, 191 ; lit" = some (.writeByte 0x3C00 191) := by decide
theorem test_assemble_loadProgram : Assembler.assemble "loadProgram [0x3E,0x42,0x76]"
    = some (.loadProgram [0x3E, 0x42, 0x76] 0x4200) := by decide
theorem test_assemble_writeString : Assembler.assemble "writeString \"ABC\", 0, -1"
    = some (.writeString [0x41, 0x42, 0x43] 0 (-1)) := by decide
theorem test_assemble_zeros :
    Assembler.assemble "loadProgram zeros(2), 0xFFFF" = some (.loadProgram [0, 0] 0xFFFF) := by decide
theorem test_assemble_fill :
    Assembler.assemble "loadROM fill(3, 0x5A)" = some (.loadROM [0x5A, 0x5A, 0x5A]) := by decide
theorem test_assemble_setTextMode :
    Assembler.assemble "setTextMode false" = some (.setTextMode false) := by decide
theorem test_assemble_text_fill : Assembler.assemble "writeString fill(2, 0x20), 0, 0"
    = some (.writeString [0x20, 0x20] 0 0) := by decide
theorem test_assemble_no_escape : Assembler.assemble "writeString \"a\"b\", 0, 0" = none := by decide
theorem test_assemble_no_blank : Assembler.assemble "loadROM[1]" = some (.loadROM [0x01]) := by decide
theorem test_assemble_code_too_large : Assembler.assemble "getGlyph 256" = none := by decide

/-- A table word of one row decodes to the row's operation, its operand fields kept. -/
theorem test_tableWord_readByte :
    decodeTableWord 64 0x0300_4200_0000_0000 = some (.readByte 0x4200) := by rfl

/-- With operand words of zeros the payload is zeros of the length the word asks for. -/
theorem test_tableWord_loadProgram :
    decodeTableWord 64 0x0700_4200_0000_0002 = some (.loadProgram [0x00, 0x00] 0x4200) := by rfl

theorem test_tableWord_illegal : decodeTableWord 64 0 = none := by rfl

/-- The step after `withFetchWord` runs that command as the first one after reset. -/
theorem test_fetchWord_runs :
    seen (State.reset.withFetchWord 64 0x0400_4000_00AB_0000) (fun t => (t.ram, t.commands))
      = some ([(0, 0xAB)], []) := by decide

/-! ## One step of each operation -/

/-- 95 M1. -/
theorem test_getStats : seen (waiting [] [] 0x0100_0000_0000_0000 []) answers
    = some [(0x0000_0000, [0x00, 0x40, 0x00, 0x00, 0x00, 0xC0, 0x00, 0x00, 0x00, 0x00, 0x01, 0x00,
        0x00])] := by decide

/-- 95 M19 (n = 1), E1. -/
theorem test_loadROM_wrong_size :
    seen (waiting [] [] 0x0200_0000_0000_0001 [0x00]) (fun t => (answers t, t.romLoaded))
      = some ([(0x0100_0000, [])], false) := by decide

/-- 95 M18: a short image of 0xAA, then zeros; R121 example. -/
theorem test_loadROM_short (s : State) :
    ∃ t, exec (.loadROM (List.replicate 14336 0xAA)) s = .next t ∧ t.readByte 0x37FF = 0xAA ∧
      t.readByte 0x3800 = 0x00 ∧ t.romLoaded = true := by
  generalize h : List.replicate 14336 (0xAA : Byte) = d
  have hd : d.length = 14336 := by rw [← h, List.length_replicate]
  have h1 : d[14335]? = some 0xAA := by
    rw [← h]; exact List.getElem?_replicate_of_lt (by decide)
  have h2 (p : List Byte) : (d ++ p)[14335]? = d[14335]? :=
    List.getElem?_append_left (by omega)
  have h3 (p : List Byte) : (d ++ p)[14336]? = p[0]? := by
    rw [List.getElem?_append_right (by omega), hd]
  refine ⟨_, by simp only [exec, execLoadROM, hd, Config.romImageFull, Config.romImageShort]; rfl,
    ?_, ?_, rfl⟩
  · rw [State.respond_readByte, State.markLoaded_readByte, State.readByte_installROM,
      if_pos (by decide), List.getD_eq_getElem?_getD, show reduceAddr 0x37FF = 14335 from rfl, h2, h1]
    rfl
  · rw [State.respond_readByte, State.markLoaded_readByte, State.readByte_installROM,
      if_pos (by decide), List.getD_eq_getElem?_getD, show reduceAddr 0x3800 = 14336 from rfl, h3]
    rfl

/-- 3.2: `readByte` returning 0xAB; the top of `rom`. -/
theorem test_readByte_rom_top : seen (waiting [(0x3FFF, 0xAB)] [(0, 0xCD)] 0x0300_3FFF_0000_0000 [])
    answers = some [(0x0000_00AB, [])] := by decide

/-- 95 section 2.1: 0x4000 reads `ram[0]`. -/
theorem test_readByte_ram_bottom :
    seen (waiting [(0x3FFF, 0xAB)] [(0, 0xCD)] 0x0300_4000_0000_0000 []) answers
      = some [(0x0000_00CD, [])] := by decide

/-- 95 M4: a protected write is dropped and answers OK. -/
theorem test_writeByte_protected :
    seen (waiting [] [] 0x0400_3BFF_00AB_0000 []) (fun t => (t.rom, t.ram, answers t))
      = some ([], [], [(0x0000_0000, [])]) := by decide

/-- 95 M9: the upper byte of VALUE is discarded, and the window is writable. -/
theorem test_writeByte_window :
    seen (waiting [] [] 0x0400_3C00_0141_0000 []) (fun t => (t.rom, t.ram, answers t))
      = some ([(0x3C00, 0x41)], [], [(0x0000_0000, [])]) := by decide

/-- R124: with 0x34 at 0x4200 and 0x12 at 0x4201 the word is 0x1234. -/
theorem test_readWord :
    seen (waiting [] [(0x200, 0x34), (0x201, 0x12)] 0x0500_4200_0000_0000 []) answers
      = some [(0x0000_1234, [])] := by decide

/-- 95 P1 line 10: the low byte from `ram[49151]`, the high byte from `rom[0]`. -/
theorem test_readWord_wraps :
    seen (waiting [(0, 0xAA)] [(49151, 0xEF)] 0x0500_FFFF_0000_0000 []) answers
      = some [(0x0000_AAEF, [])] := by decide

/-- 95 M13: low byte in the window, high byte in RAM. -/
theorem test_writeWord_straddles :
    seen (waiting [] [] 0x0600_3FFF_1234_0000 []) (fun t => (t.rom, t.ram))
      = some ([(0x3FFF, 0x34)], [(0, 0x12)]) := by decide

/-- 95 M11: the high byte aimed at 0x0000 is dropped. -/
theorem test_writeWord_wraps :
    seen (waiting [] [] 0x0600_FFFF_1234_0000 []) (fun t => (t.rom, t.ram))
      = some ([], [(49151, 0x34)]) := by decide

/-- S8, L1. -/
theorem test_loadProgram :
    seen (waiting [] [] 0x0700_4200_0000_0003 [0x3E, 0x42, 0x76]) (fun t => (t.ram, answers t))
      = some ([(0x200, 0x3E), (0x201, 0x42), (0x202, 0x76)], [(0x0000_4200, [])]) := by decide

/-- L11, E3: two bytes at 0xFFFF fail and write nothing. -/
theorem test_loadProgram_too_large :
    seen (waiting [] [] 0x0700_FFFF_0000_0002 [0x01, 0x02]) (fun t => (t.rom, t.ram, answers t))
      = some ([], [], [(0x0300_0000, [])]) := by decide

/-- R127 example: RAM is cleared, the window keeps its byte. -/
theorem test_clearRAM :
    seen (waiting [(0x3C00, 0x07)] [(0, 0x07)] 0x0800_0000_0000_0000 []) (fun t => (t.rom, t.ram))
      = some ([(0x3C00, 0x07)], []) := by decide

/-- 95 M25: bytes 0x3C00 and 0x4000 of the view. -/
theorem test_getMemoryView :
    (waiting [(0x3C00, 0x41)] [(0, 0x42)] 0 []).memoryView[0x3C00]? = some 0x41 ∧
      (waiting [(0x3C00, 0x41)] [(0, 0x42)] 0 []).memoryView[0x4000]? = some 0x42 := by
  rw [State.memoryView_getElem? _ (by decide), State.memoryView_getElem? _ (by decide)]
  decide

/-- R155 example: 0x84 at 0x3C82. -/
theorem test_setPixel : seen (waiting [] [] 0x1000_0005_0007_0000 []) (fun t => (t.rom, answers t))
    = some ([(0x3C82, 0x84)], [(0x0000_0001, [])]) := by decide

/-- S11: the second pixel of a block is merged: 128 + 0x30. -/
theorem test_setPixel_merges :
    seen (waiting [(0x3C00, 0xA0)] [] 0x1000_0001_0000_0000 []) (fun t => t.rom)
      = some [(0x3C00, 0xB0)] := by decide

/-- R156 example, X10. -/
theorem test_resetPixel :
    seen (waiting [(0x3C00, 0xBF)] [] 0x1100_0001_0001_0000 []) (fun t => (t.rom, answers t))
      = some ([(0x3C00, 0xBB)], [(0x0000_0001, [])]) := by decide

/-- X5: a byte above 191 is left alone. -/
theorem test_resetPixel_high :
    seen (waiting [(0x3C00, 0xFF)] [] 0x1100_0000_0000_0000 []) (fun t => (t.rom, answers t))
      = some ([(0x3C00, 0xFF)], [(0x0000_0000, [])]) := by decide

/-- R157 example: 0xA0 shows (0, 0) as on. -/
theorem test_pointPixel_on :
    seen (waiting [(0x3C00, 0xA0)] [] 0x1200_0000_0000_0000 []) answers
      = some [(0x0000_FFFF, [])] := by decide

/-- X6: 192 is no graphics code. -/
theorem test_pointPixel_high :
    seen (waiting [(0x3C00, 0xFF)] [] 0x1200_0000_0000_0000 []) answers
      = some [(0x0000_0000, [])] := by decide

/-- T4: the string runs off the screen into RAM. -/
theorem test_writeString_overrun :
    seen (waiting [] [] 0x1300_000F_003F_0002 [0x41, 0x42]) (fun t => (t.rom, t.ram))
      = some ([(0x3FFF, 0x41)], [(0, 0x42)]) := by decide

/-- T7: a character aimed at 0x3BFF is dropped. -/
theorem test_writeString_before :
    seen (waiting [] [] 0x1300_0000_FFFF_0003 [0x41, 0x42, 0x43]) (fun t => (t.rom, t.ram))
      = some ([(0x3C00, 0x42), (0x3C01, 0x43)], []) := by decide

/-- R171 example: the ends of the window, and their neighbours unchanged. -/
theorem test_clearScreen (s : State) :
    ∃ t, exec .clearScreen s = .next t ∧ t.readByte 0x3C00 = 0x20 ∧ t.readByte 0x3FFF = 0x20 ∧
      t.readByte 0x3BFF = s.readByte 0x3BFF ∧ t.readByte 0x4000 = s.readByte 0x4000 := by
  obtain ⟨u, h, hu⟩ := exec_clearScreen s
  refine ⟨_, h, ?_, ?_, ?_, ?_⟩ <;>
    rw [State.respond_readByte, hu, State.readByte_fillBytes]
  · exact if_pos (by decide)
  · exact if_pos (by decide)
  · exact if_neg (by decide)
  · exact if_neg (by decide)

/-- T13: byte 66 of the snapshot is cell (1, 2). -/
theorem test_getScreenSnapshot :
    (waiting [(0x3C42, 0x41)] [] 0 []).screen[66]? = some 0x41 := by
  rw [show 66 = 1 * 64 + 2 from rfl, State.screen_getElem? _ (by decide) (by decide)]
  decide

/-- X17: byte 901 is pixel (5, 7). -/
theorem test_getGraphicsSnapshot :
    (waiting [(0x3C82, 0x84)] [] 0 []).canvas[901]? = some 0x01 := by
  rw [show 901 = 7 * 128 + 5 from rfl, State.canvas_getElem? _ (by decide) (by decide)]
  decide

/-- R173 example. -/
theorem test_setTextMode : seen (waiting [] [] 0x1700_0000_0000_0000 []) (fun t => t.textMode)
    = some false := by decide

/-- R174 example, T14. -/
theorem test_getTextMode : seen (waiting [] [] 0x1800_0000_0000_0000 []) answers
    = some [(0x0000_0001, [])] := by decide

/-- R196 example. -/
theorem test_getGlyph_A0 : seen (waiting [] [] 0x1900_0000_0000_00A0 []) answers
    = some [(0, [0xF0, 0xF0, 0xF0, 0xF0, 0, 0, 0, 0, 0, 0, 0, 0])] := by decide

/-- 95 section 2.5: 0xEA is drawn as 0xAA. -/
theorem test_getGlyph_EA : seen (waiting [] [] 0x1900_0000_0000_00EA []) answers
    = some [(0, [0xF0, 0xF0, 0xF0, 0xF0, 0xF0, 0xF0, 0xF0, 0xF0, 0xF0, 0xF0, 0xF0, 0xF0])] := by
  decide

/-- F5: line 188 of the last cell, byte 12095. -/
theorem test_renderFrame :
    (waiting [(0x3FFF, 0x81)] [] 0 []).frame[12095]? = some 0x0F := by
  rw [show 12095 = 188 * 64 + 63 from rfl, State.frame_getElem? _ (by decide) (by decide)]
  decide

/-- E4: an illegal command answers and changes nothing. -/
theorem test_illegalCommand :
    seen (waiting [] [] 0x0A00_0000_0000_0000 []) (fun t => (t.rom, t.ram, answers t))
      = some ([], [], [(0xFF00_0000, [])]) := by decide

/-- Writing the reset content takes the cell out of the list: equal memories are equal data. -/
theorem test_canonical :
    seen (waiting [] [(0, 0x07)] 0x0400_4000_0000_0000 []) (fun t => t.ram) = some [] := by decide

/-! ## Witnesses: states and operands that meet the hypotheses of the obligations -/

/-- A waiting command of each outcome of the decoder, with another one behind it. -/
def queued (w : CommandWord) (p : List Byte) : State :=
  { State.reset with commands := [⟨w, p⟩, ⟨w, p⟩] }

theorem witness_StepKeepsTheInvariant :
    (waiting [] [] 0x0400_4000_00AB_0000 []).wf = true ∧
      ∃ t, step (waiting [] [] 0x0400_4000_00AB_0000 []) = .next t := ⟨by decide, _, rfl⟩

theorem witness_StepRunsTheDecodedCommand :
    (queued 0x0400_4000_00AB_0000 []).commands
      = ⟨0x0400_4000_00AB_0000, []⟩ :: [⟨0x0400_4000_00AB_0000, []⟩] ∧
    decode ⟨0x0400_4000_00AB_0000, []⟩ = .ok (.writeByte 0x4000 0xAB) := ⟨rfl, rfl⟩

/-- One command for each reason of illegality. -/
theorem witness_IllegalCommandChangesNothing :
    ((queued 0 []).commands = ⟨0, []⟩ :: [⟨0, []⟩] ∧
      decode ⟨0, []⟩ = .error .unknownOpcode) ∧
    ((queued 0x0301_4200_0000_0000 []).commands
        = ⟨0x0301_4200_0000_0000, []⟩ :: [⟨0x0301_4200_0000_0000, []⟩] ∧
      decode ⟨0x0301_4200_0000_0000, []⟩ = .error .reservedField) ∧
    ((queued 0x0300_0000_0000_0000 [0]).commands
        = ⟨0x0300_0000_0000_0000, [0]⟩ :: [⟨0x0300_0000_0000_0000, [0]⟩] ∧
      decode ⟨0x0300_0000_0000_0000, [0]⟩ = .error .payloadLength) :=
  ⟨⟨rfl, rfl⟩, ⟨rfl, rfl⟩, rfl, rfl⟩

theorem witness_IdleStepChangesNothing : State.reset.commands = [] := rfl

theorem witness_OneResponseForEachCommand :
    (queued 0x0100_0000_0000_0000 []).commands
      = ⟨0x0100_0000_0000_0000, []⟩ :: [⟨0x0100_0000_0000_0000, []⟩] := rfl

/-- Every failure is reached, by a command that stands twice in the queue (also for `FailureRepeats`). -/
theorem witness_FailureLeavesTheBlockUnchanged (f : Failure) :
    ∃ (s t : State) (cmd : Command) (r : Response), s.commands = [cmd, cmd] ∧ step s = .next t ∧
      t.responses = s.responses ++ [r] ∧ r.status = .failed f := by
  cases f with
  | invalidROMSize => exact ⟨queued 0x0200_0000_0000_0000 [], _, _, _, rfl, rfl, rfl, rfl⟩
  | programTargetsROM => exact ⟨queued 0x0700_3FFF_0000_0001 [0x41], _, _, _, rfl, rfl, rfl, rfl⟩
  | programTooLarge => exact ⟨queued 0x0700_FFFF_0000_0002 [0, 0], _, _, _, rfl, rfl, rfl, rfl⟩
  | illegalCommand => exact ⟨queued 0x0A00_0000_0000_0000 [], _, _, _, rfl, rfl, rfl, rfl⟩

theorem witness_FailureRepeats (f : Failure) :
    ∃ (s t : State) (cmd : Command) (r : Response), s.commands = [cmd, cmd] ∧ step s = .next t ∧
      t.responses = s.responses ++ [r] ∧ r.status = .failed f :=
  witness_FailureLeavesTheBlockUnchanged f

/-- The three failures of decoded operations. -/
theorem witness_OnlyLoadsFail :
    (∃ t r, exec (.loadROM []) State.reset = .next t ∧
      t.responses = State.reset.responses ++ [r] ∧ r.status = .failed .invalidROMSize) ∧
    (∃ t r, exec (.loadProgram [0x41] 0x3FFF) State.reset = .next t ∧
      t.responses = State.reset.responses ++ [r] ∧ r.status = .failed .programTargetsROM) ∧
    (∃ t r, exec (.loadProgram [0, 0] 0xFFFF) State.reset = .next t ∧
      t.responses = State.reset.responses ++ [r] ∧ r.status = .failed .programTooLarge) :=
  ⟨⟨_, _, rfl, rfl, rfl⟩, ⟨_, _, rfl, rfl, rfl⟩, _, _, rfl, rfl, rfl⟩

/-- Operands at both ends of each domain. -/
theorem witness_DecodeOfEncodeIsIdentity :
    wellFormed (.writeWord 0 65535) = true ∧ wellFormed (.writeWord 65535 0) = true ∧
      wellFormed (.setPixel (-32768) 32767) = true ∧
      wellFormed (.writeString [0x41] 32767 (-32768)) = true ∧
      wellFormed (.loadProgram [] 0) = true ∧ wellFormed .renderFrame = true := by decide

/-- The longest payload LEN can carry. -/
theorem witness_length : fitsLength (List.replicate 65535 0x00) = true := by
  rw [fitsLength, List.length_replicate]; decide

theorem witness_EncodeOfDecodeIsIdentity :
    decode ⟨0x1200_8000_7FFF_0000, []⟩ = .ok (.pointPixel (-32768) 32767) := rfl

theorem witness_CommandSizeFollowsFromTheWord :
    decode ⟨0x1300_0000_0000_0002, [0x48, 0x49]⟩ = .ok (.writeString [0x48, 0x49] 0 0) ∧
      decode ⟨0x0300_4200_0000_0000, []⟩ = .ok (.readByte 0x4200) := ⟨rfl, rfl⟩

/-- Each clause of the reserved words, at its ends: an unassigned OP, a gap, the top, and RSV. -/
theorem witness_ReservedWordsAreIllegal :
    ((0x00 : Byte) = 0) ∧ (0x0A ≤ (0x0A : Byte).toNat ∧ (0x0A : Byte).toNat ≤ 0x0F) ∧
      (0x0A ≤ (0x0F : Byte).toNat ∧ (0x0F : Byte).toNat ≤ 0x0F) ∧ 0x1B ≤ (0x1B : Byte).toNat ∧
      0x1B ≤ (0xFF : Byte).toNat ∧ (0x01 : Byte) ≠ 0 := by decide

/-- A legal word of each format, and one bit more that makes it illegal. -/
theorem witness_LegalWordsOfEachFormat :
    decode ⟨0x1700_0000_0000_0001, []⟩ = .ok (.setTextMode true) ∧
      decode ⟨0x1700_0000_0000_0002, []⟩ = .error .reservedField ∧
      decode ⟨0x1900_0000_0000_00FF, []⟩ = .ok (.getGlyph 0xFF) ∧
      decode ⟨0x1900_0000_0000_0100, []⟩ = .error .reservedField := ⟨rfl, rfl, rfl, rfl⟩

theorem witness_PortTruncationIsReduction :
    (List.replicate 65535 (0x00 : Byte)).length ≤ 65535 := by rw [List.length_replicate]

/-- The three regions at their ends (95 section 2.1). -/
theorem witness_RegionDecode :
    region 0x0000 = .romProtected ∧ region 0x3BFF = .romProtected ∧ region 0x3C00 = .video ∧
      region 0x3FFF = .video ∧ region 0x4000 = .ram ∧ region 0xFFFF = .ram := by decide

/-- Both accepted lengths and the lengths next to them; LEN says each of them. -/
theorem witness_LoadROMReplacesTheImage :
    (List.replicate 16384 (0 : Byte)).length = 16384 ∧
      (List.replicate 14336 (0 : Byte)).length = 14336 ∧
      (List.replicate 14336 (0 : Byte)).length = (14336 : Word).toNat ∧
      ¬ ((List.replicate 14335 (0 : Byte)).length = 16384 ∨
        (List.replicate 14335 (0 : Byte)).length = 14336) ∧
      ¬ ((List.replicate 16385 (0 : Byte)).length = 16384 ∨
        (List.replicate 16385 (0 : Byte)).length = 14336) := by
  simp only [List.length_replicate]; decide

/-- The two ends of protected ROM, and an address that wraps into it. -/
theorem witness_ProtectedWriteIsSilent :
    reduceAddr 0 ≤ 0x3BFF ∧ reduceAddr 0x3BFF ≤ 0x3BFF ∧ reduceAddr 65536 ≤ 0x3BFF := by decide

/-- The two ends of the range. -/
theorem witness_WordRoundTrip :
    (0x3C00 ≤ reduceAddr 0x3C00 ∧ reduceAddr 0x3C00 ≤ 0xFFFE) ∧
      (0x3C00 ≤ reduceAddr 0xFFFE ∧ reduceAddr 0xFFFE ≤ 0xFFFE) := by decide

/-- The clauses of `WriteByteWritesOneByte` and `WriteWordWritesTwoBytes`, each at a boundary: written, dropped,
the high byte written, the high byte dropped. -/
theorem witness_WriteClauses :
    (reduceAddr 0x3C00 = reduceAddr 0x3C00 ∧ 0x3C00 ≤ reduceAddr 0x3C00) ∧
      ¬ (0x3C00 ≤ reduceAddr 0x3BFF) ∧
      (reduceAddr 0x3C00 = reduceAddr (0x3BFF + 1) ∧ 0x3C00 ≤ reduceAddr (0x3BFF + 1)) ∧
      ¬ (0x3C00 ≤ reduceAddr (0xFFFF + 1)) := by decide

/-- The four outcomes of a load, at their boundaries: empty at 0x0000 (L3), 0x3FFF (L4), two bytes at 0xFFFF
(L11), one byte at 0xFFFF and one at 0x4000 (L10, L6). -/
theorem witness_LoadProgramChecksThenWrites :
    ([] : List Byte).length = 0 ∧ reduceAddr 0x3FFF < 0x4000 ∧
      (¬ reduceAddr 0xFFFF < 0x4000 ∧
        (reduceAddr 0xFFFF + [(0 : Byte), 0].length - 1) % 65536 < reduceAddr 0xFFFF) ∧
      ¬ ((reduceAddr 0xFFFF + [(0 : Byte)].length - 1) % 65536 < reduceAddr 0xFFFF) ∧
      (¬ reduceAddr 0x4000 < 0x4000 ∧
        ¬ ((reduceAddr 0x4000 + [(0 : Byte)].length - 1) % 65536 < reduceAddr 0x4000)) := by decide

theorem witness_LoadProgramKeepsROM :
    [(0x41 : Byte)].length ≤ 65535 ∧
      ∃ t, exec (.loadProgram [0x41] 0x4000) State.reset = .next t := ⟨by decide, _, rfl⟩

theorem witness_LoadsCommute : [(0x3E : Byte), 0x42, 0x76].length ≤ 65535 := by decide

theorem witness_MemoryViewIsEveryByte : (0 : Nat) < 65536 ∧ 65535 < 65536 := by decide

/-- The corners of the canvas, and the coordinates next to it (X13, X14): the clauses of `SetPixelSetsOneBit`
and `PointPixelTestsOneBit`. -/
theorem witness_inBounds :
    inBounds 0 0 = true ∧ inBounds 127 47 = true ∧ inBounds (-1) 0 = false ∧
      inBounds 128 0 = false ∧ inBounds 0 (-1) = false ∧ inBounds 0 48 = false := by decide

/-- The graphics codes at their ends: the clauses of RESET and POINT. -/
theorem witness_isGraphics :
    isGraphics 0x7F = false ∧ isGraphics 0x80 = true ∧ isGraphics 0xBF = true ∧
      isGraphics 0xC0 = false := by decide

/-- In bounds on a graphics code, in bounds on a text byte, out of bounds. -/
theorem witness_ResetPixelClearsOneBit :
    ((0 ≤ (127 : Int) ∧ (127 : Int) ≤ 127 ∧ 0 ≤ (47 : Int) ∧ (47 : Int) ≤ 47) ∧
      128 ≤ ((waiting [(0x3FFF, 0x80)] [] 0 []).readByte (0x3C00 + 47 / 3 * 64 + 127 / 2)).toNat ∧
      ((waiting [(0x3FFF, 0x80)] [] 0 []).readByte (0x3C00 + 47 / 3 * 64 + 127 / 2)).toNat ≤ 191) ∧
    ¬ (128 ≤ (State.reset.readByte (0x3C00 + 47 / 3 * 64 + 127 / 2)).toNat) := by decide

theorem witness_GraphicsSnapshotIsTheCanvas :
    (127 : Nat) < 128 ∧ (47 : Nat) < 48 ∧
      (0 : Nat) = (State.reset.readByte ((0x3C00 + 47 / 3 * 64 + 127 / 2 : Nat) : Int)).toNat := by
  decide

theorem witness_SetPointResetPoint : inBounds 0 0 = true ∧ inBounds 127 47 = true := by decide

/-- A pixel of another block, and another pixel of the same graphics block. -/
theorem witness_OtherPixelsStay :
    inBounds 0 0 = true ∧
    (inBounds 2 0 = true ∧ ((2 : Int), (0 : Int)) ≠ (0, 0) ∧ blockAddr 2 0 ≠ blockAddr 0 0) ∧
    (inBounds 1 0 = true ∧ ((1 : Int), (0 : Int)) ≠ (0, 0) ∧
      isGraphics ((waiting [(0x3C00, 0xBF)] [] 0 []).readByte (blockAddr 0 0)) = true) ∧
    (∃ t, exec (.setPixel 0 0) (waiting [(0x3C00, 0xBF)] [] 0 []) = .next t) ∧
    ∃ t, exec (.resetPixel 0 0) (waiting [(0x3C00, 0xBF)] [] 0 []) = .next t :=
  ⟨by decide, by decide, by decide, ⟨_, rfl⟩, _, rfl⟩

/-- A SET and a RESET that change a byte. -/
theorem witness_PixelWritesAreGraphicsCodes :
    (∃ t, exec (.setPixel 0 0) State.reset = .next t ∧
      t.readByte 0x3C00 ≠ State.reset.readByte 0x3C00) ∧
    ∃ t, exec (.resetPixel 0 0) (waiting [(0x3C00, 0xA0)] [] 0 []) = .next t ∧
      t.readByte 0x3C00 ≠ (waiting [(0x3C00, 0xA0)] [] 0 []).readByte 0x3C00 :=
  ⟨⟨_, rfl, by decide⟩, _, rfl, by decide⟩

/-- The first address of a string, the last one before it comes round, and a protected one. -/
theorem witness_WriteStringWritesCharacters :
    [(0x41 : Byte), 0x42].length = (2 : Word).toNat ∧
      0 = reduceAddr (0x3FFF - (0x3C00 + 15 * 64 + 63)) ∧
      (0 < [(0x41 : Byte), 0x42].length ∧ 0x3C00 ≤ reduceAddr 0x3FFF) ∧
      (0 = reduceAddr (0x3BFF - (0x3C00 + 0 * 64 + -1)) ∧ ¬ 0x3C00 ≤ reduceAddr 0x3BFF) := by
  decide

/-- The last cell, and a whole row. -/
theorem witness_StringOnItsRowStaysOnScreen :
    (15 : Nat) < 16 ∧ 63 + [(0x41 : Byte)].length ≤ 64 ∧
      0 + (List.replicate 64 (0x41 : Byte)).length ≤ 64 := by decide

theorem witness_ScreenSnapshotIsTheGrid : (15 : Nat) < 16 ∧ (63 : Nat) < 64 := by decide

theorem witness_TextModeGatesNothing :
    Instr.setTextMode false ≠ .getTextMode ∧ Instr.renderFrame ≠ .getTextMode := by decide

theorem witness_RenderFrameShowsEachCell : (511 : Nat) < 512 ∧ (191 : Nat) < 192 := by decide

/-- A screen of graphics codes. -/
theorem witness_FrameIsTheEnlargedCanvas (a : Nat) (h0 : 0x3C00 ≤ a) (h1 : a ≤ 0x3FFF) :
    128 ≤ ((State.reset.fillBytes 0x3C00 0x80 1024).readByte a).toNat ∧
      ((State.reset.fillBytes 0x3C00 0x80 1024).readByte a).toNat ≤ 191 := by
  have e := reduceAddr_eq ((a : Int) - 0x3C00)
  have r : reduceAddr (a : Int) = a := reduceAddr_natCast (by omega)
  rw [State.readByte_fillBytes, if_pos ⟨by omega, (writable_iff _).2 (by omega)⟩]
  decide

theorem witness_HighCodesAreDrawnNotQueried :
    inBounds 0 0 = true ∧
      192 ≤ ((waiting [(0x3C00, 0xC0)] [] 0 []).readByte (blockAddr 0 0)).toNat := by decide

/-- A component that an operation may not change. -/
theorem witness_OnlyTheListedWritersWrite :
    wellFormed (.writeByte 0x3C00 0x41) = true ∧
      Component.protectedRom ∉ mayChange (.writeByte 0x3C00 0x41) ∧
      ∃ t, exec (.writeByte 0x3C00 0x41) State.reset = .next t := ⟨by decide, by decide, _, rfl⟩

theorem witness_OnlyLoadROMChangesProtectedROM :
    (waiting [] [] 0x0400_3BFF_00AB_0000 []).commands = ⟨0x0400_3BFF_00AB_0000, []⟩ :: [] ∧
      fieldOp 0x0400_3BFF_00AB_0000 ≠ 0x02 ∧ 0x3BFF ≤ 0x3BFF ∧
      ∃ t, step (waiting [] [] 0x0400_3BFF_00AB_0000 []) = .next t :=
  ⟨rfl, by decide, by decide, _, rfl⟩

/-- A successful and a failing `loadROM`. -/
theorem witness_OnlyLoadROMSetsRomLoaded :
    (∃ t, exec (.loadROM (List.replicate 14336 0)) State.reset = .next t) ∧
      ∃ t, exec (.loadROM []) State.reset = .next t :=
  ⟨(exec_answers _ _).imp fun _ h => h.choose_spec.1, (exec_answers _ _).imp fun _ h => h.choose_spec.1⟩

end Sys2Proof.Tests
end

namespace Sys2Proof.Machine

/-- Taking a command from a queue that holds one removes it and touches nothing else (R65). -/
theorem State.fetch_of_commands {s : State} {cmd : Command} {rest : List Command}
    (hq : s.commands = cmd :: rest) : s.fetch = some (cmd, { s with commands := rest }) := by
  rw [State.fetch, hq]

/-- The step on a legal command (R88): what `exec` does once the command is off the queue. -/
theorem step_of_decode_ok {s : State} {cmd : Command} {rest : List Command} {i : Instr}
    (hq : s.commands = cmd :: rest) (hd : decode cmd = .ok i) :
    step s = exec i { s with commands := rest } := by
  simp only [step, State.fetch_of_commands hq, hd]

/-- Settles O4: the command is fetched, and the decoder's success selects the branch that runs `exec`. -/
theorem stepRunsTheDecodedCommand : Obligations.StepRunsTheDecodedCommand :=
  fun _ _ _ _ hq hd => step_of_decode_ok hq hd

end Sys2Proof.Machine

namespace Sys2Proof.Machine

/-! ### The step, by what the next command decodes to -/

/-- The step on an illegal command (R214): the command is taken and the failure answered. -/
theorem step_of_decode_error {s : State} {cmd : Command} {rest : List Command} {e : Illegal}
    (hq : s.commands = cmd :: rest) (hd : decode cmd = .error e) :
    step s = .next ({ s with commands := rest }.respond (Response.failure .illegalCommand)) := by
  simp only [step, State.fetch_of_commands hq, hd, State.raise]

/-- The step with no command waiting (R221; log entry 1). -/
theorem step_of_idle {s : State} (hq : s.commands = []) : step s = .next s := by
  simp only [step, State.fetch, hq]

/-- A decoded operation is one the port can carry (R83 to R86). -/
theorem wellFormed_of_decode {cmd : Command} {i : Instr} (h : decode cmd = .ok i) :
    wellFormed i = true := by
  obtain ⟨op, -, -, hlen, rfl⟩ := decode_eq_ok h
  have hfit : fitsLength cmd.payload = true := by
    have hC := (fieldC cmd.word).isLt
    rw [fitsLength_iff, hlen, payloadLength]
    split <;> omega
  cases op <;>
    simp only [Opcode.operation, wellFormed, fitsUnsigned_unsignedOperand,
      fitsSigned_signedOperand, hfit, Bool.and_self]

/-- Only a word with OP 0x02 decodes to a `loadROM` (R87). -/
theorem fieldOp_of_decode_loadROM {cmd : Command} {data : List Byte}
    (h : decode cmd = .ok (.loadROM data)) : fieldOp cmd.word = 0x02 := by
  obtain ⟨op, hop, -, -, hi⟩ := decode_eq_ok h
  cases op with
  | loadROM => exact hop
  | _ => cases hi

/-! ### What an operation does to the block -/

/-- A `loadROM` of one of the two accepted lengths (R121). -/
def InstallsImage : Instr → Prop
  | .loadROM data => data.length = 14336 ∨ data.length = 16384
  | _ => False

theorem installsImage_iff (i : Instr) : InstallsImage i ↔
    ∃ data, i = .loadROM data ∧ (data.length = 14336 ∨ data.length = 16384) := by
  cases i <;> simp [InstallsImage]

/-- `Effect s i u`: the operation `i`, begun in `s`, leaves the block as it is in `u`. One constructor for
each way an operation writes, with the conditions under which it does, and one for leaving the block
alone. -/
inductive Effect (s : State) : Instr → State → Prop
  /-- A query, a failure (R217), or a pixel operation that does not apply. -/
  | nothing {i : Instr} (hi : ¬ InstallsImage i) : Effect s i s
  /-- R121, with the image `d` already padded to the size of `rom`. -/
  | image {data d : List Byte} (hdata : InstallsImage (.loadROM data)) (hd : d.length = 16384) :
      Effect s (.loadROM data) (s.installROM d).markLoaded
  /-- R123 -/
  | byte (address value : Int) : Effect s (.writeByte address value) (s.writeByte address value)
  /-- R125 -/
  | word (address value : Int) :
      Effect s (.writeWord address value) (s.storeWord address (reduceWord value))
  /-- R126, past its checks. -/
  | program {data : List Byte} {address : Int} (hbase : 0x4000 ≤ reduceAddr address)
      (hend : reduceAddr address ≤ (reduceAddr address + data.length - 1) % 65536) :
      Effect s (.loadProgram data address) (s.storeBytes (reduceAddr address : Int) data)
  /-- R127 -/
  | zeroed : Effect s .clearRAM s.zeroRAM
  /-- R155, in bounds. -/
  | pixelOn {x y : Int} (v : Byte) (hxy : inBounds x y = true) :
      Effect s (.setPixel x y) (s.storeByte (blockAddr x y) v)
  /-- R156, in bounds and on a graphics code. -/
  | pixelOff {x y : Int} (v : Byte) (hxy : inBounds x y = true) :
      Effect s (.resetPixel x y) (s.storeByte (blockAddr x y) v)
  /-- R170 -/
  | text (d : List Byte) (row col : Int) :
      Effect s (.writeString d row col) (s.storeBytes (cellAddr row col) d)
  /-- R171; the filled state is named, so that no proof evaluates the 1024 writes. -/
  | screen {u : State} (hu : u = s.fillBytes (Config.videoStart : Int) 0x20 Config.videoSize) :
      Effect s .clearScreen u
  /-- R173 -/
  | mode (m : Bool) : Effect s (.setTextMode m) (s.storeTextMode m)

/-- Every operation answers from a state that is one of its effects. -/
theorem exec_effect (i : Instr) (s : State) :
    ∃ (u : State) (r : Response), exec i s = .next (u.respond r) ∧ Effect s i u := by
  cases i with
  | loadROM data =>
    simp only [exec, execLoadROM]
    split
    · next hfull => exact ⟨_, _, rfl, .image (.inr hfull) hfull⟩
    · next hfull =>
      split
      · next hshort =>
        refine ⟨_, _, rfl, .image (.inl hshort) ?_⟩
        rw [List.length_append, List.length_replicate, hshort]
        rfl
      · next hshort => exact ⟨_, _, rfl, .nothing (not_or.2 ⟨hshort, hfull⟩)⟩
  | loadProgram data address =>
    simp only [exec, execLoadProgram]
    split
    · exact ⟨_, _, rfl, .nothing not_false⟩
    · split
      · exact ⟨_, _, rfl, .nothing not_false⟩
      · next hbase =>
        split
        · exact ⟨_, _, rfl, .nothing not_false⟩
        · next hend => exact ⟨_, _, rfl, .program (not_lt.1 hbase) (not_lt.1 hend)⟩
  | setPixel x y =>
    simp only [exec, execSetPixel]
    split
    · next hxy => exact ⟨_, _, rfl, .pixelOn _ hxy⟩
    · exact ⟨_, _, rfl, .nothing not_false⟩
  | resetPixel x y =>
    simp only [exec, execResetPixel]
    split
    · next hxy =>
      split
      · exact ⟨_, _, rfl, .pixelOff _ hxy⟩
      · exact ⟨_, _, rfl, .nothing not_false⟩
    · exact ⟨_, _, rfl, .nothing not_false⟩
  | pointPixel x y =>
    simp only [exec, execPointPixel]
    split <;> exact ⟨_, _, rfl, .nothing not_false⟩
  | writeByte address value => exact ⟨_, _, rfl, .byte address value⟩
  | writeWord address value => exact ⟨_, _, rfl, .word address value⟩
  | clearRAM => exact ⟨_, _, rfl, .zeroed⟩
  | writeString d row col => exact ⟨_, _, rfl, .text d row col⟩
  | clearScreen =>
    obtain ⟨u, hexec, hu⟩ := exec_clearScreen s
    exact ⟨u, _, hexec, .screen hu⟩
  | setTextMode m => exact ⟨_, _, rfl, .mode m⟩
  | getStats | readByte | readWord | getMemoryView | getScreenSnapshot | getGraphicsSnapshot
  | getTextMode | getGlyph | renderFrame => exact ⟨_, _, rfl, .nothing not_false⟩

/-- The state an operation ends in is one of its effects and a response. -/
theorem effect_of_exec {i : Instr} {s t : State} (h : exec i s = .next t) :
    ∃ (u : State) (r : Response), t = u.respond r ∧ Effect s i u := by
  obtain ⟨u, r, hexec, hu⟩ := exec_effect i s
  rw [hexec] at h
  injection h with h
  exact ⟨u, r, h.symm, hu⟩

/-! ### The invariant -/

/-- Every effect keeps both arrays in canonical form and within their lengths (R25). -/
theorem Effect.wf {i : Instr} {s u : State} (h : Effect s i u) (hs : s.wf = true) :
    u.wf = true := by
  cases h with
  | nothing => exact hs
  | image _ hd =>
    rw [State.wf_markLoaded]
    exact State.wf_installROM hs hd.le
  | byte address value => exact State.wf_storeByte hs ..
  | word address value => exact State.wf_storeWord hs ..
  | program => exact State.wf_storeBytes hs ..
  | zeroed => exact State.wf_zeroRAM hs
  | pixelOn v => exact State.wf_storeByte hs ..
  | pixelOff v => exact State.wf_storeByte hs ..
  | text d row col => exact State.wf_storeBytes hs ..
  | screen hu =>
    rw [hu]
    exact State.wf_fillBytes hs ..
  | mode m =>
    rw [State.wf_storeTextMode]
    exact hs

/-- An operation keeps the invariant. -/
theorem exec_wf {i : Instr} {s t : State} (h : exec i s = .next t) (hs : s.wf = true) :
    t.wf = true := by
  obtain ⟨u, r, rfl, hu⟩ := effect_of_exec h
  rw [State.wf_respond]
  exact hu.wf hs

/-- Settles O3: an idle step and an illegal command leave the arrays alone, and an operation keeps the
invariant. -/
theorem stepKeepsTheInvariant : Obligations.StepKeepsTheInvariant := by
  intro s t hs hstep
  cases hq : s.commands with
  | nil =>
    rw [step_of_idle hq] at hstep
    cases hstep
    exact hs
  | cons cmd rest =>
    cases hd : decode cmd with
    | error e =>
      rw [step_of_decode_error hq hd] at hstep
      cases hstep
      exact hs
    | ok i =>
      rw [step_of_decode_ok hq hd] at hstep
      exact exec_wf hstep hs

/-! ### The table of writers -/

/-- The component of the table of R26 to which the byte at a reduced address belongs (R53). -/
def componentAt (a : Nat) : Component :=
  match region a with
  | .romProtected => .protectedRom
  | .video => .videoWindow
  | .ram => .ram

theorem componentAt_of_lt {a : Nat} (h : a < 0x3C00) : componentAt a = .protectedRom := by
  rw [componentAt, region_protected h]

theorem componentAt_of_window {a : Nat} (h : 0x3C00 ≤ a) (h' : a ≤ 0x3FFF) :
    componentAt a = .videoWindow := by
  rw [componentAt, region_video h h']

theorem componentAt_of_ge {a : Nat} (h : 0x4000 ≤ a) : componentAt a = .ram := by
  rw [componentAt, region_ram h]

/-- A byte outside the RAM component is below 0x4000. -/
theorem lt_of_componentAt_ne_ram {a : Nat} (h : componentAt a ≠ .ram) : a < 0x4000 :=
  lt_of_not_ge fun hge => h (componentAt_of_ge hge)

/-- A byte in neither writable component is protected. -/
theorem lt_of_componentAt_ne_video_ram {a : Nat} (hv : componentAt a ≠ .videoWindow)
    (hr : componentAt a ≠ .ram) : a < 0x3C00 := by
  have := lt_of_componentAt_ne_ram hr
  exact lt_of_not_ge fun hge => hv (componentAt_of_window hge (by omega))

/-- A byte in neither component of `rom` is in RAM. -/
theorem ge_of_componentAt_ne_rom {a : Nat} (hp : componentAt a ≠ .protectedRom)
    (hv : componentAt a ≠ .videoWindow) : 0x4000 ≤ a := by
  have : ¬ a < 0x3C00 := fun hlt => hp (componentAt_of_lt hlt)
  exact le_of_not_gt fun hlt => hv (componentAt_of_window (by omega) (by omega))

/-- A byte write to the video window changes no other component (R55). -/
theorem State.readByte_storeByte_window (s : State) {a b : Int} (v : Byte)
    (ha : 0x3C00 ≤ reduceAddr a ∧ reduceAddr a ≤ 0x3FFF)
    (hb : componentAt (reduceAddr b) ≠ .videoWindow) :
    (s.storeByte a v).readByte b = s.readByte b := by
  rw [s.readByte_storeByte, if_neg]
  rintro ⟨hab, -⟩
  exact hb (hab ▸ componentAt_of_window ha.1 ha.2)

/-- A fill of the video window changes no other component (R171). -/
theorem State.readByte_fillBytes_window (s : State) {b : Int} (v : Byte)
    (hb : componentAt (reduceAddr b) ≠ .videoWindow) :
    (s.fillBytes (Config.videoStart : Int) v Config.videoSize).readByte b = s.readByte b := by
  rw [s.readByte_fillBytes, if_neg]
  rintro ⟨hlt, -⟩
  have hoff := reduceAddr_eq (b - (Config.videoStart : Int))
  have hred := reduceAddr_eq b
  simp only [Config.videoStart, Config.videoSize, Nat.cast_ofNat] at hoff hlt
  exact hb (componentAt_of_window (by omega) (by omega))

/-- A run of byte writes leaves the protected bytes alone (R56). -/
theorem State.readByte_storeBytes_protected (s : State) {base b : Int} (d : List Byte)
    (hb : reduceAddr b < 0x3C00) : (s.storeBytes base d).readByte b = s.readByte b := by
  rw [s.readByte_storeBytes, if_neg]
  rintro ⟨-, hwritable⟩
  exact absurd ((writable_iff b).1 hwritable) (not_le.2 hb)

/-- A byte write is a run of one. -/
theorem State.writeByte_eq_storeBytes (s : State) (a v : Int) :
    s.writeByte a v = s.storeBytes a [reduceByte v] := rfl

/-- A word write is a run of two, low byte first (R60). -/
theorem State.storeWord_eq_storeBytes (s : State) (a : Int) (w : Word) :
    s.storeWord a w = s.storeBytes a [lowByte w, highByte w] := rfl

/-- A program of a length the port can carry, whose end does not wrap, goes to RAM alone (R126). -/
theorem State.readByte_storeBytes_program (s : State) {a : Nat} {b : Int} {d : List Byte}
    (hbase : 0x4000 ≤ a) (hend : a ≤ (a + d.length - 1) % 65536) (hlen : d.length ≤ 65535)
    (hb : reduceAddr b < 0x4000) : (s.storeBytes (a : Int) d).readByte b = s.readByte b := by
  have hoff := reduceAddr_eq (b - a)
  have hred := reduceAddr_eq b
  rw [s.readByte_storeBytes, if_neg (by omega)]

/-- Every effect leaves the bytes of the components the table does not grant its operation (R26). -/
theorem Effect.readByte_eq {i : Instr} {s u : State} (h : Effect s i u)
    (hw : wellFormed i = true) {b : Int} (hb : componentAt (reduceAddr b) ∉ mayChange i) :
    u.readByte b = s.readByte b := by
  cases h <;> simp only [mayChange, List.mem_cons, List.not_mem_nil, or_false, not_or] at hb
  case nothing => rfl
  case image data d hdata hd =>
    have := ge_of_componentAt_ne_rom hb.1 hb.2.1
    rw [State.markLoaded_readByte, State.readByte_installROM, if_neg (by omega)]
  case byte address value =>
    rw [State.writeByte_eq_storeBytes]
    exact s.readByte_storeBytes_protected _ (lt_of_componentAt_ne_video_ram hb.1 hb.2)
  case word address value =>
    rw [State.storeWord_eq_storeBytes]
    exact s.readByte_storeBytes_protected _ (lt_of_componentAt_ne_video_ram hb.1 hb.2)
  case program data address hbase hend =>
    have hlen := (fitsLength_iff data).1 (Bool.and_eq_true_iff.1 hw).1
    exact s.readByte_storeBytes_program hbase hend hlen (lt_of_componentAt_ne_ram hb)
  case zeroed =>
    have := lt_of_componentAt_ne_ram hb
    rw [State.readByte_zeroRAM, if_neg (by omega)]
  case pixelOn x y v hxy => exact s.readByte_storeByte_window v (blockAddr_range hxy) hb
  case pixelOff x y v hxy => exact s.readByte_storeByte_window v (blockAddr_range hxy) hb
  case text d row col =>
    exact s.readByte_storeBytes_protected d (lt_of_componentAt_ne_video_ram hb.1 hb.2)
  case screen hu =>
    rw [hu]
    exact s.readByte_fillBytes_window 0x20 hb
  case mode => rfl

/-- `romLoaded` after an effect (R23). -/
theorem Effect.romLoaded_iff {i : Instr} {s u : State} (h : Effect s i u) :
    u.romLoaded = true ↔ s.romLoaded = true ∨ InstallsImage i := by
  cases h with
  | nothing hi => simp [hi]
  | image hdata => simp [hdata]
  | screen hu => simp [hu, InstallsImage]
  | _ => simp [InstallsImage]

/-- `textMode` after any effect but that of `setTextMode` (R27). -/
theorem Effect.textMode_eq {i : Instr} {s u : State} (h : Effect s i u)
    (hi : Component.textMode ∉ mayChange i) : u.textMode = s.textMode := by
  cases h with
  | screen hu => rw [hu, State.fillBytes_textMode]
  | mode m => exact absurd (List.mem_singleton.2 rfl) hi
  | _ => simp

/-- An operation that the table does not grant `romLoaded` installs no image (R26). -/
theorem not_installsImage_of_not_mem {i : Instr} (hi : Component.romLoaded ∉ mayChange i) :
    ¬ InstallsImage i := by
  rw [installsImage_iff]
  rintro ⟨data, rfl, -⟩
  simp [mayChange] at hi

/-- Every effect leaves the components the table does not grant its operation (R26). -/
theorem Effect.unchanged {i : Instr} {s u : State} (h : Effect s i u)
    (hw : wellFormed i = true) {c : Component} (hc : c ∉ mayChange i) : c.Unchanged s u := by
  cases c with
  | protectedRom =>
    intro a ha
    refine h.readByte_eq hw ?_
    rwa [reduceAddr_natCast (by omega), componentAt_of_lt ha]
  | videoWindow =>
    intro a ha ha'
    refine h.readByte_eq hw ?_
    rwa [reduceAddr_natCast (by omega), componentAt_of_window ha ha']
  | ram =>
    intro a ha ha'
    refine h.readByte_eq hw ?_
    rwa [reduceAddr_natCast (by omega), componentAt_of_ge ha]
  | romLoaded =>
    have hi := not_installsImage_of_not_mem hc
    exact Bool.eq_iff_iff.2 (by rw [h.romLoaded_iff, or_iff_left hi])
  | textMode => exact h.textMode_eq hc

/-- No component holds the responses. -/
theorem Component.unchanged_respond {c : Component} {s u : State} (h : c.Unchanged s u)
    (r : Response) : c.Unchanged s (u.respond r) := by
  cases c <;> exact h

/-- Settles O54: the response an operation adds is in no component, and its effect keeps to the table. -/
theorem onlyTheListedWritersWrite : Obligations.OnlyTheListedWritersWrite := by
  intro i s t c hw hexec hc
  obtain ⟨u, r, rfl, hu⟩ := effect_of_exec hexec
  exact Component.unchanged_respond (hu.unchanged hw hc) r

/-- The table grants protected ROM to `loadROM` alone. -/
theorem protectedRom_mem_mayChange_iff (i : Instr) :
    Component.protectedRom ∈ mayChange i ↔ ∃ data, i = .loadROM data := by
  cases i <;> simp [mayChange]

/-- Settles O55: an illegal command changes nothing, and a legal one whose OP is not 0x02 decodes to an
operation that the table does not grant protected ROM. -/
theorem onlyLoadROMChangesProtectedROM : Obligations.OnlyLoadROMChangesProtectedROM := by
  intro s t cmd rest a hq hop hstep ha
  cases hd : decode cmd with
  | error e =>
    rw [step_of_decode_error hq hd] at hstep
    cases hstep
    rfl
  | ok i =>
    rw [step_of_decode_ok hq hd] at hstep
    have hi : Component.protectedRom ∉ mayChange i := by
      rw [protectedRom_mem_mayChange_iff]
      rintro ⟨data, rfl⟩
      exact hop (fieldOp_of_decode_loadROM hd)
    exact onlyTheListedWritersWrite i _ t .protectedRom (wellFormed_of_decode hd) hstep hi a
      (by omega)

/-- Settles O56: the flag is set by the one effect that installs an image, and by no other. -/
theorem onlyLoadROMSetsRomLoaded : Obligations.OnlyLoadROMSetsRomLoaded := by
  intro i s t hexec
  obtain ⟨u, r, rfl, hu⟩ := effect_of_exec hexec
  rw [State.respond_romLoaded, hu.romLoaded_iff, installsImage_iff]

/-! ### Reset -/

/-- Settles O1: both arrays are empty at reset, and an unlisted byte reads 0x00. -/
theorem resetIsZeroFilled : Obligations.ResetIsZeroFilled := by
  refine ⟨fun a => ?_, rfl, rfl⟩
  rcases Nat.lt_or_ge (reduceAddr a) 0x4000 with h | h
  · rw [State.readByte_low _ h]
    exact Memory.read_nil _
  · rw [State.readByte_high _ h]
    exact Memory.read_nil _

/-- Settles O2: both arrays are the zero-filled array, which is in canonical form and in bounds. -/
theorem resetMeetsTheInvariant : Obligations.ResetMeetsTheInvariant :=
  (State.wf_iff _).2 ⟨Memory.wf_zeroFilled, Memory.within_zeroFilled _, Memory.wf_zeroFilled,
    Memory.within_zeroFilled _⟩

end Sys2Proof.Machine

namespace Sys2Proof.Machine

/-! ### Reduced addresses in the byte and word paths -/

/-- Addresses with one reduction keep one reduction when the same offset is added (R51, R60). -/
theorem reduceAddr_add_congr {a b : Int} (h : reduceAddr a = reduceAddr b) (n : Int) :
    reduceAddr (a + n) = reduceAddr (b + n) := by
  rw [reduceAddr_eq_iff] at h ⊢
  rwa [Int.add_sub_add_right]

/-- A byte write depends on the reduced address only (R51). -/
theorem State.storeByte_reduce (s : State) {a b : Int} (h : reduceAddr a = reduceAddr b)
    (v : Byte) : s.storeByte a v = s.storeByte b v := by
  simp only [State.storeByte, h]

/-- A run of byte writes depends on the reduction of its first address only (R51, R126, R170). -/
theorem State.storeBytes_reduce (s : State) {a b : Int} (h : reduceAddr a = reduceAddr b)
    (d : List Byte) : s.storeBytes a d = s.storeBytes b d := by
  induction d generalizing s a b with
  | nil => rfl
  | cons x xs ih =>
    rw [State.storeBytes_cons, State.storeBytes_cons, s.storeByte_reduce h]
    exact ih _ (reduceAddr_add_congr h 1)

/-- A word read depends on the reduced address only (R51, R60). -/
theorem State.readWord_reduce (s : State) {a b : Int} (h : reduceAddr a = reduceAddr b) :
    s.readWord a = s.readWord b := by
  rw [State.readWord, State.readWord, s.readByte_reduce h,
    s.readByte_reduce (reduceAddr_add_congr h 1)]

/-- A word write depends on the reduced address only (R51, R60). -/
theorem State.storeWord_reduce (s : State) {a b : Int} (h : reduceAddr a = reduceAddr b)
    (w : Word) : s.storeWord a w = s.storeWord b w := by
  rw [State.storeWord_eq_storeBytes, State.storeWord_eq_storeBytes, s.storeBytes_reduce h]

/-- A text row further down by `1024 * k` is `65536 * k` addresses further on (R170). -/
theorem cellAddr_add_row (row col k : Int) :
    cellAddr (row + 1024 * k) col = cellAddr row col + 65536 * k := by
  simp only [cellAddr]; ring

/-- A text column further on by `65536 * k` is as many addresses further on (R170). -/
theorem cellAddr_add_col (row col k : Int) :
    cellAddr row (col + 65536 * k) = cellAddr row col + 65536 * k := by
  simp only [cellAddr]; ring

/-! ### What the byte, word and run operations answer -/

theorem exec_readByte (a : Int) (s : State) :
    exec (.readByte a) s = s.answer (byteValue (s.readByte a)) [] := rfl

theorem exec_writeByte (a v : Int) (s : State) :
    exec (.writeByte a v) s = (s.storeByte a (reduceByte v)).answer 0 [] := rfl

theorem exec_readWord (a : Int) (s : State) :
    exec (.readWord a) s = s.answer (s.readWord a) [] := rfl

theorem exec_writeWord (a v : Int) (s : State) :
    exec (.writeWord a v) s = (s.storeWord a (reduceWord v)).answer 0 [] := rfl

theorem exec_writeString (d : List Byte) (row col : Int) (s : State) :
    exec (.writeString d row col) s = (s.storeBytes (cellAddr row col) d).answer 0 [] := rfl

/-- `loadProgram` reduces its address before it checks it (R126). -/
theorem exec_loadProgram_reduce (d : List Byte) {a b : Int} (h : reduceAddr a = reduceAddr b)
    (s : State) : exec (.loadProgram d a) s = exec (.loadProgram d b) s := by
  simp only [exec, execLoadProgram, h]

/-- Settles O21: each operation sees its address through `reduceAddr` alone, and a text position enters by
its cell address. -/
theorem addressesAreUsedModulo65536 : Obligations.AddressesAreUsedModulo65536 := by
  intro address value row col k data s
  have haddr := reduceAddr_add_mul address k
  have hcell := reduceAddr_add_mul (cellAddr row col) k
  refine ⟨?_, ?_, ?_, ?_, exec_loadProgram_reduce data haddr s, ?_, ?_⟩
  · rw [exec_readByte, exec_readByte, s.readByte_reduce haddr]
  · rw [exec_writeByte, exec_writeByte, s.storeByte_reduce haddr]
  · rw [exec_readWord, exec_readWord, s.readWord_reduce haddr]
  · rw [exec_writeWord, exec_writeWord, s.storeWord_reduce haddr]
  · rw [exec_writeString, exec_writeString, cellAddr_add_row, s.storeBytes_reduce hcell]
  · rw [exec_writeString, exec_writeString, cellAddr_add_col, s.storeBytes_reduce hcell]

/-! ### Writing a byte again -/

theorem Memory.erase_erase (m : Memory) (i : Nat) : (m.erase i).erase i = m.erase i := by
  simp only [Memory.erase, List.filter_filter, Bool.and_self]

theorem Memory.erase_insert (m : Memory) (i : Nat) (v : Byte) :
    (m.insert i v).erase i = m.erase i := by
  induction m with
  | nil => simp [Memory.insert, Memory.erase]
  | cons c m ih =>
    obtain ⟨k, w⟩ := c
    simp only [Memory.insert]
    split
    · simp only [Memory.erase, List.filter_cons] at ih ⊢
      rw [ih]
    · simp [Memory.erase]

/-- Of two writes at one index the second counts, in canonical form or not (R63). -/
theorem Memory.write_write (m : Memory) (i : Nat) (v w : Byte) :
    (m.write i v).write i w = m.write i w := by
  have herase : (m.write i v).erase i = m.erase i := by
    rw [Memory.write]
    split
    · exact Memory.erase_erase m i
    · rw [Memory.erase_insert, Memory.erase_erase]
  rw [Memory.write, herase, ← Memory.write]

/-- Of two byte writes at one address the second counts, in every region (R55, R63). -/
theorem State.storeByte_storeByte (s : State) (a : Int) (v w : Byte) :
    (s.storeByte a v).storeByte a w = s.storeByte a w := by
  rcases Nat.lt_or_ge (reduceAddr a) 0x3C00 with hprot | hvideo
  · rw [s.storeByte_protected_eq v hprot]
  · rcases Nat.lt_or_ge (reduceAddr a) 0x4000 with hlow | hram
    · have hwindow : reduceAddr a ≤ 0x3FFF := by omega
      simp only [State.storeByte_video_eq _ _ hvideo hwindow, Memory.write_write]
    · simp only [State.storeByte_ram_eq _ _ hram, Memory.write_write]

/-- A byte write does not see the responses. -/
theorem State.storeByte_respond (s : State) (r : Response) (a : Int) (v : Byte) :
    (s.respond r).storeByte a v = (s.storeByte a v).respond r := rfl

/-- A response is no part of the block (R20). -/
theorem sameBlock_respond (s : State) (r : Response) : SameBlock s (s.respond r) :=
  ⟨rfl, rfl, rfl, rfl⟩

/-- Settles O34: the second write finds the state the first one made, and stores the same byte there. -/
theorem writingTwiceIsWritingOnce : Obligations.WritingTwiceIsWritingOnce := by
  intro address value s
  refine ⟨_, _, exec_writeByte address value s, exec_writeByte address value _, ?_⟩
  rw [State.storeByte_respond, State.storeByte_storeByte]
  exact sameBlock_respond _ _

/-! ### What the pixel operations write -/

/-- SET and RESET either leave the block alone or store a graphics code at the block byte of a pixel on the
canvas (R155, R156). -/
theorem exec_setPixel_or_resetPixel {x y : Int} {s t : State}
    (h : exec (.setPixel x y) s = .next t ∨ exec (.resetPixel x y) s = .next t) :
    ∃ r : Response, t = s.respond r ∨
      inBounds x y = true ∧ ∃ p : Pattern, t = (s.storeByte (blockAddr x y) (pack p)).respond r := by
  rcases h with h | h
  · simp only [exec, execSetPixel] at h
    split at h
    · next hxy => cases h; exact ⟨_, .inr ⟨hxy, _, rfl⟩⟩
    · cases h; exact ⟨_, .inl rfl⟩
  · simp only [exec, execResetPixel] at h
    split at h
    · next hxy =>
      split at h
      · cases h; exact ⟨_, .inr ⟨hxy, _, rfl⟩⟩
      · cases h; exact ⟨_, .inl rfl⟩
    · cases h; exact ⟨_, .inl rfl⟩

/-- Settles O42: a byte that changed is the block byte, which lies in the window, and what was stored there
is a packed pattern. -/
theorem pixelWritesAreGraphicsCodes : Obligations.PixelWritesAreGraphicsCodes := by
  intro x y s t b hexec hne
  obtain ⟨r, rfl | ⟨hxy, p, rfl⟩⟩ := exec_setPixel_or_resetPixel hexec
  · exact absurd (s.respond_readByte r b) hne
  · rw [State.respond_readByte, State.readByte_storeByte] at hne ⊢
    split at hne
    · next hb =>
      obtain ⟨hlow, hhigh⟩ := blockAddr_range hxy
      rw [if_pos hb, hb.1]
      exact ⟨hlow, hhigh, (isGraphics_iff _).1 (isGraphics_pack p)⟩
    · exact absurd rfl hne

/-! ### Regions of 16-bit addresses -/

/-- The region of an address, by the comparisons of R53. -/
theorem region_eq_iff (a : Nat) :
    (region a = .ram ↔ 0x4000 ≤ a) ∧ (region a = .video ↔ 0x3C00 ≤ a ∧ a ≤ 0x3FFF) ∧
      (region a = .romProtected ↔ a ≤ 0x3BFF) := by
  rcases Nat.lt_or_ge a 0x3C00 with hprot | hvideo
  · simp only [region_protected hprot, reduceCtorEq, false_iff, true_iff]; omega
  · rcases Nat.lt_or_ge a 0x4000 with hlow | hram
    · have hwindow : a ≤ 0x3FFF := Nat.le_of_lt_succ hlow
      simp only [region_video hvideo hwindow, reduceCtorEq, false_iff, true_iff]; omega
    · simp only [region_ram hram, reduceCtorEq, false_iff, true_iff]; omega

/-- The bits of an address from bit `i` upward, as a number. -/
theorem toNat_extractLsb'_word (a : Word) (i n : Nat) :
    (a.extractLsb' i n).toNat = a.toNat / 2 ^ i % 2 ^ n := by
  rw [BitVec.extractLsb'_toNat, Nat.shiftRight_eq_div_pow]

/-- `a[15:14]` is not 0 exactly in RAM (R53, derived there from R7). -/
theorem extractLsb'_14_ne_zero_iff (a : Word) : a.extractLsb' 14 2 ≠ 0 ↔ 0x4000 ≤ a.toNat := by
  have := a.isLt
  rw [Ne, ← BitVec.toNat_inj, toNat_extractLsb'_word, show (0 : BitVec 2).toNat = 0 from rfl]
  omega

/-- `a[15:10]` is 001111 exactly in the video window (R53, derived there from R7). -/
theorem extractLsb'_10_eq_iff (a : Word) :
    a.extractLsb' 10 6 = 0b001111 ↔ 0x3C00 ≤ a.toNat ∧ a.toNat ≤ 0x3FFF := by
  have := a.isLt
  rw [← BitVec.toNat_inj, toNat_extractLsb'_word, show (0b001111 : BitVec 6).toNat = 15 from rfl]
  omega

/-- Settles O20: the comparisons give the regions of every address, and the two bit fields are its quotients
by 16384 and by 1024. -/
theorem regionDecode : Obligations.RegionDecode := by
  intro a
  obtain ⟨hram, hvideo, hprot⟩ := region_eq_iff a.toNat
  exact ⟨hram, hvideo, hprot, (extractLsb'_14_ne_zero_iff a).symm,
    (extractLsb'_10_eq_iff a).symm⟩

/-! ### Protected writes -/

/-- Settles O26: the write path drops the byte, so only the response is added. -/
theorem protectedWriteIsSilent : Obligations.ProtectedWriteIsSilent := by
  intro address value s haddr
  refine ⟨s.respond (Response.okay 0 []), ?_, sameBlock_respond _ _, rfl, rfl⟩
  rw [exec_writeByte, s.storeByte_protected_eq _ (Nat.lt_succ_of_le haddr), State.answer]

end Sys2Proof.Machine

namespace Sys2Proof

/-! ### Which words and payloads a format takes -/

/-- The fields and payloads of the legal commands of a format: unused fields and parts of fields are zero, and
the payload has the length the format asks for (R82, R86, R88). -/
def Format.Takes (f : Format) (a b c : Word) (p : List Byte) : Prop :=
  match f with
  | .N => a = 0 ∧ b = 0 ∧ c = 0 ∧ p = []
  | .A => b = 0 ∧ c = 0 ∧ p = []
  | .AV => c = 0 ∧ p = []
  | .XY => c = 0 ∧ p = []
  | .L => a = 0 ∧ b = 0 ∧ p.length = c.toNat
  | .AL => b = 0 ∧ p.length = c.toNat
  | .RCL => p.length = c.toNat
  | .M => a = 0 ∧ b = 0 ∧ c.toNat ≤ 1 ∧ p = []
  | .G => a = 0 ∧ b = 0 ∧ c.toNat ≤ 255 ∧ p = []

/-- A field below `2^k` passes a mask that leaves its low `k` bits free; the converse is `masked_low`. -/
theorem and_eq_zero_of_lt {c m : Word} {k : Nat} (hm : ∀ j < k, m.getLsbD j = false)
    (hc : c.toNat < 2 ^ k) : c &&& m = 0 := by
  apply BitVec.eq_of_getLsbD_eq
  intro j _
  rw [BitVec.getLsbD_and, show (0 : Word).getLsbD j = false from BitVec.getLsbD_zero]
  rcases Nat.lt_or_ge j k with hj | hj
  · rw [hm j hj, Bool.and_false]
  · have hbit : c.getLsbD j = false :=
      Nat.testBit_lt_two_pow (hc.trans_le (Nat.pow_le_pow_right (by decide) hj))
    rw [hbit, Bool.false_and]

/-- The field C of format M passes its mask exactly when it is a bit (R82). -/
theorem formatM_fieldC_iff (c : Word) : c &&& fieldC Format.M.mask = 0 ↔ c.toNat ≤ 1 :=
  ⟨formatM_fieldC c, fun h => and_eq_zero_of_lt (k := 1) (by decide) (Nat.lt_succ_of_le h)⟩

/-- The field C of format G passes its mask exactly when it is a byte (R82). -/
theorem formatG_fieldC_iff (c : Word) : c &&& fieldC Format.G.mask = 0 ↔ c.toNat ≤ 255 :=
  ⟨formatG_fieldC c, fun h => and_eq_zero_of_lt (k := 8) (by decide) (Nat.lt_succ_of_le h)⟩

/-- A field under a mask of all ones passes it exactly when the field is zero. -/
theorem and_ones_eq_zero_iff (w : Word) : w &&& 0xFFFF#16 = 0#16 ↔ w = 0#16 := by
  rw [show 0xFFFF#16 = BitVec.allOnes 16 from rfl, BitVec.and_allOnes]

/-- The mask of a format and its payload length, field by field, ask for what the format takes: an unused
field has the mask of all ones, a whole operand the mask zero (R82, R86). -/
theorem Format.takes_iff (f : Format) (a b c : Word) (p : List Byte) :
    f.Takes a b c p ↔
      (a &&& fieldA f.mask = 0 ∧ b &&& fieldB f.mask = 0 ∧ c &&& fieldC f.mask = 0) ∧
        p.length = if f.hasPayload then c.toNat else 0 := by
  cases f with
  | N =>
    change _ ↔
      (a &&& 0xFFFF#16 = 0 ∧ b &&& 0xFFFF#16 = 0 ∧ c &&& 0xFFFF#16 = 0) ∧ p.length = 0
    simp [Format.Takes, and_ones_eq_zero_iff, and_assoc]
  | A =>
    change _ ↔ (a &&& 0#16 = 0 ∧ b &&& 0xFFFF#16 = 0 ∧ c &&& 0xFFFF#16 = 0) ∧ p.length = 0
    simp [Format.Takes, and_ones_eq_zero_iff, and_assoc]
  | AV | XY =>
    change _ ↔ (a &&& 0#16 = 0 ∧ b &&& 0#16 = 0 ∧ c &&& 0xFFFF#16 = 0) ∧ p.length = 0
    simp [Format.Takes, and_ones_eq_zero_iff]
  | L =>
    change _ ↔
      (a &&& 0xFFFF#16 = 0 ∧ b &&& 0xFFFF#16 = 0 ∧ c &&& 0#16 = 0) ∧ p.length = c.toNat
    simp [Format.Takes, and_ones_eq_zero_iff, and_assoc]
  | AL =>
    change _ ↔ (a &&& 0#16 = 0 ∧ b &&& 0xFFFF#16 = 0 ∧ c &&& 0#16 = 0) ∧ p.length = c.toNat
    simp [Format.Takes, and_ones_eq_zero_iff]
  | RCL =>
    change _ ↔ (a &&& 0#16 = 0 ∧ b &&& 0#16 = 0 ∧ c &&& 0#16 = 0) ∧ p.length = c.toNat
    simp [Format.Takes]
  | M =>
    rw [formatM_fieldC_iff]
    change _ ↔ (a &&& 0xFFFF#16 = 0 ∧ b &&& 0xFFFF#16 = 0 ∧ c.toNat ≤ 1) ∧ p.length = 0
    simp [Format.Takes, and_ones_eq_zero_iff, and_assoc]
  | G =>
    rw [formatG_fieldC_iff]
    change _ ↔ (a &&& 0xFFFF#16 = 0 ∧ b &&& 0xFFFF#16 = 0 ∧ c.toNat ≤ 255) ∧ p.length = 0
    simp [Format.Takes, and_ones_eq_zero_iff, and_assoc]

/-! ### The decoder on the words of a row -/

/-- A command whose word passes the tests of a row decodes to that row's operation; the converse is
`decode_eq_ok`. -/
theorem decode_of_match {cmd : Command} {op : Opcode} (hop : fieldOp cmd.word = op.code)
    (hmask : cmd.word &&& op.format.mask = op.matchWord)
    (hlen : cmd.payload.length = payloadLength op cmd.word) :
    decode cmd = .ok (op.operation cmd.word cmd.payload) := by
  simp [decode, hop, hmask, hlen]

/-- The mask test of a row's word is a test of each operand field (R82). -/
theorem commandWord_match_iff (op : Opcode) (a b c : Word) :
    commandWord op a b c &&& op.format.mask = op.matchWord ↔
      a &&& fieldA op.format.mask = 0 ∧ b &&& fieldB op.format.mask = 0 ∧
        c &&& fieldC op.format.mask = 0 := by
  constructor
  · intro h
    obtain ⟨-, ha, hb, hc⟩ := fields_of_match h
    rw [fieldA_commandWord] at ha
    rw [fieldB_commandWord] at hb
    rw [fieldC_commandWord] at hc
    exact ⟨ha, hb, hc⟩
  · rintro ⟨ha, hb, hc⟩
    rw [commandWord_and_mask, ha, hb, hc, Opcode.matchWord_eq]

/-- The tests of the decoder on a row's word are what the row's format takes (R88). -/
theorem Opcode.takes_iff (op : Opcode) (a b c : Word) (p : List Byte) :
    op.format.Takes a b c p ↔ commandWord op a b c &&& op.format.mask = op.matchWord ∧
      p.length = payloadLength op (commandWord op a b c) := by
  rw [Format.takes_iff, commandWord_match_iff, payloadLength, fieldC_commandWord]

/-- Two rows with one code are the same row. -/
theorem Opcode.code_injective : Function.Injective Opcode.code := by
  intro op op' h
  have hrow := Opcode.ofCode?_code op
  rw [h, Opcode.ofCode?_code] at hrow
  exact (Option.some.inj hrow).symm

/-- The decoder on a word of a given row, whatever its fields. -/
theorem decode_commandWord_iff (op : Opcode) (a b c : Word) (p : List Byte) (i : Instr) :
    decode ⟨commandWord op a b c, p⟩ = .ok i ↔
      op.format.Takes a b c p ∧ i = op.operation (commandWord op a b c) p := by
  rw [Opcode.takes_iff]
  constructor
  · intro h
    obtain ⟨op', hop, hmask, hlen, hi⟩ := decode_eq_ok h
    rw [fieldOp_commandWord] at hop
    obtain rfl := Opcode.code_injective hop
    exact ⟨⟨hmask, hlen⟩, hi⟩
  · rintro ⟨⟨hmask, hlen⟩, rfl⟩
    exact decode_commandWord op a b c p hmask hlen

/-- Every legal command is a row's word with fields and a payload that the row's format takes. -/
theorem exists_fields_of_decode {cmd : Command} {i : Instr} (h : decode cmd = .ok i) :
    ∃ (op : Opcode) (a b c : Word) (p : List Byte), cmd = ⟨commandWord op a b c, p⟩ ∧
      op.format.Takes a b c p ∧ i = op.operation (commandWord op a b c) p := by
  obtain ⟨op, hop, hmask, -, -⟩ := decode_eq_ok h
  obtain ⟨hrsv, -⟩ := fields_of_match hmask
  have hcmd : cmd = ⟨commandWord op (fieldA cmd.word) (fieldB cmd.word) (fieldC cmd.word),
      cmd.payload⟩ := by
    rw [commandWord_fields op cmd.word hop hrsv]
  rw [hcmd] at h
  exact ⟨op, _, _, _, _, hcmd, (decode_commandWord_iff ..).1 h⟩

/-- Settles O15: the tests of the decoder, field by field, are those of the format. -/
theorem legalWordsOfEachFormat : Obligations.LegalWordsOfEachFormat := by
  intro op a b c p
  have hlegal : (∃ i, decode ⟨commandWord op a b c, p⟩ = .ok i) ↔
      op.format.Takes a b c p := by
    simp only [decode_commandWord_iff, exists_and_left, exists_eq, and_true]
  exact hlegal

/-! ### Decoding an encoded operation -/

/-- Every operation the port can carry has a legal word: the family `LegalWord`, for all rows. -/
theorem legalWord (i : Instr) : Laws.LegalWord.Statement i :=
  match i with
  | .getStats => Laws.LegalWord.getStats
  | .loadROM data => Laws.LegalWord.loadROM data
  | .readByte address => Laws.LegalWord.readByte address
  | .writeByte address value => Laws.LegalWord.writeByte address value
  | .readWord address => Laws.LegalWord.readWord address
  | .writeWord address value => Laws.LegalWord.writeWord address value
  | .loadProgram data address => Laws.LegalWord.loadProgram data address
  | .clearRAM => Laws.LegalWord.clearRAM
  | .getMemoryView => Laws.LegalWord.getMemoryView
  | .setPixel x y => Laws.LegalWord.setPixel x y
  | .resetPixel x y => Laws.LegalWord.resetPixel x y
  | .pointPixel x y => Laws.LegalWord.pointPixel x y
  | .writeString text row col => Laws.LegalWord.writeString text row col
  | .clearScreen => Laws.LegalWord.clearScreen
  | .getScreenSnapshot => Laws.LegalWord.getScreenSnapshot
  | .getGraphicsSnapshot => Laws.LegalWord.getGraphicsSnapshot
  | .setTextMode mode => Laws.LegalWord.setTextMode mode
  | .getTextMode => Laws.LegalWord.getTextMode
  | .getGlyph code => Laws.LegalWord.getGlyph code
  | .renderFrame => Laws.LegalWord.renderFrame

/-- The operands assembled from the fields of an encoded operation are its own (R83 to R86). -/
theorem operation_encode {i : Instr} (h : wellFormed i = true) :
    i.opcode.operation (encode i).word (encode i).payload = i := by
  cases i with
  | readByte | writeByte | readWord | writeWord | loadProgram =>
    simp only [wellFormed, Bool.and_eq_true] at h
    simp [Instr.opcode, Opcode.operation, encode, unsignedOperand_of_fits, h]
  | setPixel | resetPixel | pointPixel | writeString =>
    simp only [wellFormed, Bool.and_eq_true] at h
    simp [Instr.opcode, Opcode.operation, encode, signedOperand_of_fits, h]
  | setTextMode mode => cases mode <;> rfl
  | getGlyph code => simp [Instr.opcode, Opcode.operation, encode]
  | getStats | loadROM | clearRAM | getMemoryView | clearScreen | getScreenSnapshot
  | getGraphicsSnapshot | getTextMode | renderFrame => rfl

/-- Settles O13: the word of an encoded operation passes its row's tests, and each operand reads back. -/
theorem decodeOfEncodeIsIdentity : Obligations.DecodeOfEncodeIsIdentity := by
  intro i hi
  obtain ⟨hop, hmask, hlen⟩ := legalWord i hi
  rw [decode_of_match hop hmask hlen, operation_encode hi]

/-! ### Encoding a decoded command -/

/-- A payload as long as LEN says gives LEN back (R86). -/
theorem lengthField_of_length {p : List Byte} {c : Word} (h : p.length = c.toNat) :
    lengthField p = c := by
  rw [lengthField, h, BitVec.ofNat_toNat, BitVec.setWidth_eq]

/-- The field C of format M is the bit it decodes to (R82). -/
theorem modeField_of_le {c : Word} (h : c.toNat ≤ 1) :
    (if c.getLsbD 0 then 1 else 0 : Word) = c := by
  have hc : c = 0 ∨ c = 1 := by
    rcases Nat.le_one_iff_eq_zero_or_eq_one.1 h with h0 | h1
    · exact .inl (BitVec.eq_of_toNat_eq h0)
    · exact .inr (BitVec.eq_of_toNat_eq h1)
  rcases hc with rfl | rfl <;> rfl

/-- The field C of format G is the byte it decodes to (R82). -/
theorem codeField_of_le {c : Word} (h : c.toNat ≤ 255) : (c.setWidth 8).setWidth 16 = c := by
  apply BitVec.eq_of_toNat_eq
  simp only [BitVec.toNat_setWidth]
  omega

/-- Encoding the operation a row reads from its word gives the word back, where the format takes its fields
and payload. -/
theorem encode_operation {op : Opcode} {a b c : Word} {p : List Byte}
    (h : op.format.Takes a b c p) :
    encode (op.operation (commandWord op a b c) p) = ⟨commandWord op a b c, p⟩ := by
  cases op with
  | getStats | clearRAM | getMemoryView | clearScreen | getScreenSnapshot | getGraphicsSnapshot
  | getTextMode | renderFrame =>
    obtain ⟨rfl, rfl, rfl, rfl⟩ := h
    rfl
  | readByte | readWord =>
    obtain ⟨rfl, rfl, rfl⟩ := h
    simp [Opcode.operation, encode]
  | writeByte | writeWord | setPixel | resetPixel | pointPixel =>
    obtain ⟨rfl, rfl⟩ := h
    simp [Opcode.operation, encode]
  | loadROM =>
    obtain ⟨rfl, rfl, hlen⟩ := h
    simp [Opcode.operation, encode, lengthField_of_length hlen]
  | loadProgram =>
    obtain ⟨rfl, hlen⟩ := h
    simp [Opcode.operation, encode, lengthField_of_length hlen]
  | writeString =>
    have hlen : p.length = c.toNat := h
    simp [Opcode.operation, encode, lengthField_of_length hlen]
  | setTextMode =>
    obtain ⟨rfl, rfl, hmode, rfl⟩ := h
    rw [Opcode.operation, fieldC_commandWord, encode, modeField_of_le hmode]
  | getGlyph =>
    obtain ⟨rfl, rfl, hcode, rfl⟩ := h
    rw [Opcode.operation, fieldC_commandWord, encode, codeField_of_le hcode]

/-- Settles O14: a legal command is a row's word with fields its format takes, and each field is the encoding
of the operand read from it. -/
theorem encodeOfDecodeIsIdentity : Obligations.EncodeOfDecodeIsIdentity := by
  intro cmd i h
  refine ⟨Machine.wellFormed_of_decode h, ?_⟩
  obtain ⟨op, a, b, c, p, rfl, htakes, rfl⟩ := exists_fields_of_decode h
  exact encode_operation htakes

/-! ### Illegal words, and the size of a legal command -/

/-- The OP of any five fields (R81). -/
theorem fieldOp_append (op rsv : Byte) (a b c : Word) :
    fieldOp (op ++ rsv ++ a ++ b ++ c) = op := by
  rw [fieldOp, BitVec.extractLsb'_append_eq_of_le (by decide),
    BitVec.extractLsb'_append_eq_of_le (by decide), BitVec.extractLsb'_append_eq_of_le (by decide)]
  exact BitVec.extractLsb'_append_eq_left

/-- The RSV of any five fields (R81). -/
theorem fieldRsv_append (op rsv : Byte) (a b c : Word) :
    fieldRsv (op ++ rsv ++ a ++ b ++ c) = rsv := by
  rw [fieldRsv, BitVec.extractLsb'_append_eq_of_le (by decide),
    BitVec.extractLsb'_append_eq_of_le (by decide), BitVec.extractLsb'_append_eq_of_le (by decide)]
  exact BitVec.extractLsb'_append_eq_right

/-- The codes of the rows are 0x01 to 0x09 and 0x10 to 0x1A (R87). -/
theorem Opcode.code_range (op : Opcode) :
    (0x01 ≤ op.code.toNat ∧ op.code.toNat ≤ 0x09) ∨
      (0x10 ≤ op.code.toNat ∧ op.code.toNat ≤ 0x1A) := by
  cases op <;> decide

/-- Settles O16: a legal word has the code of a row in OP and zero in RSV. -/
theorem reservedWordsAreIllegal : Obligations.ReservedWordsAreIllegal := by
  intro op rsv a b c p hreserved
  cases hd : decode ⟨op ++ rsv ++ a ++ b ++ c, p⟩ with
  | error e => exact ⟨e, rfl⟩
  | ok i =>
    obtain ⟨row, hop, hmask, -, -⟩ := decode_eq_ok hd
    obtain ⟨hrsv, -⟩ := fields_of_match hmask
    rw [fieldOp_append] at hop
    rw [fieldRsv_append] at hrsv
    have hrange := row.code_range
    rw [← hop] at hrange
    rcases hreserved with rfl | hgap | htop | hne
    · exact absurd hrange (by decide)
    · omega
    · omega
    · exact absurd hrsv hne

/-- The rows with a payload are those of OP 0x02, 0x07 and 0x13 (R86, R87). -/
theorem Opcode.hasPayload_iff (op : Opcode) :
    op.format.hasPayload = true ↔ op.code = 0x02 ∨ op.code = 0x07 ∨ op.code = 0x13 := by
  cases op <;> decide

/-- Settles O17: the three codes that `commandSize` names are the rows whose payload length is LEN. -/
theorem commandSizeFollowsFromTheWord : Obligations.CommandSizeFollowsFromTheWord := by
  intro cmd i h
  obtain ⟨op, hop, -, hlen, -⟩ := decode_eq_ok h
  simp only [commandSize, hop, hlen, payloadLength, op.hasPayload_iff]

/-- Settles O12: the decoder, run on each word. -/
theorem workedWordsDecode : Obligations.WorkedWordsDecode :=
  ⟨rfl, rfl, rfl, rfl, rfl, rfl, rfl, rfl, rfl, rfl, rfl, rfl, rfl⟩

end Sys2Proof

namespace Sys2Proof.Machine

/-! ### Responses -/

/-- Settles O7: the step takes the command and answers it once, with a failure or with what `exec` answers. -/
theorem oneResponseForEachCommand : Obligations.OneResponseForEachCommand := by
  intro s cmd rest hq
  cases hd : decode cmd with
  | error e => exact ⟨_, _, step_of_decode_error hq hd, rfl, rfl⟩
  | ok i =>
    obtain ⟨t, r, hexec, hresponses, hcommands⟩ := exec_answers i { s with commands := rest }
    exact ⟨t, r, (step_of_decode_ok hq hd).trans hexec, hcommands, hresponses⟩

theorem Response.word_status (r : Response) : r.word.extractLsb' 24 8 = r.status.code := by
  rw [Response.word, BitVec.extractLsb'_append_eq_of_le (by decide)]
  exact BitVec.extractLsb'_append_eq_left

theorem Response.word_reserved (r : Response) : r.word.extractLsb' 16 8 = 0 := by
  rw [Response.word, BitVec.extractLsb'_append_eq_of_le (by decide)]
  exact BitVec.extractLsb'_append_eq_right

theorem Response.word_value (r : Response) : r.word.extractLsb' 0 16 = r.value :=
  BitVec.extractLsb'_append_eq_right

/-- Settles O19: the response word is its three fields side by side, and the codes are those of R92. -/
theorem responseWordFields : Obligations.ResponseWordFields :=
  ⟨fun r => ⟨r.word_status, r.word_reserved, r.word_value⟩, rfl, rfl, rfl, rfl, rfl⟩

/-! ### Truncation at the port -/

theorem fitsUnsigned_emod (a : Int) : fitsUnsigned (a % 65536) = true :=
  (fitsUnsigned_iff _).2 (by omega)

/-- An operand and its residue have the same field (R83). -/
theorem operandField_emod (a : Int) : operandField (a % 65536) = operandField a := by
  rw [← unsignedOperand_operandField, operandField_unsignedOperand]

/-- An address and what the port keeps of it are one address (R51, R83). -/
theorem reduceAddr_emod (a : Int) : reduceAddr (a % 65536) = reduceAddr a := by
  rw [reduceAddr_eq_iff]
  omega

/-- A value and what the port keeps of it are one word (R52, R84). -/
theorem reduceWord_emod (v : Int) : reduceWord (v % 65536) = reduceWord v := operandField_emod v

/-- A value and what the port keeps of it are one byte (R52, R84). -/
theorem reduceByte_emod (v : Int) : reduceByte (v % 65536) = reduceByte v := by
  apply BitVec.eq_of_toNat_eq
  simp only [reduceByte, BitVec.toNat_ofInt]
  omega

/-- An operation with the encoding and the effect of one the port can carry decodes to something that does
what it does. -/
theorem decode_encode_of_truncated {i j : Instr} {s : State} (hj : wellFormed j = true)
    (hencode : encode i = encode j) (hexec : exec j s = exec i s) :
    ∃ k, decode (encode i) = .ok k ∧ exec k s = exec i s :=
  ⟨j, hencode ▸ decodeOfEncodeIsIdentity j hj, hexec⟩

/-- Settles O18: what the port carries in place of an operand is its residue modulo 65536, and each operation
reduces its operands at least as far. -/
theorem portTruncationIsReduction : Obligations.PortTruncationIsReduction := by
  intro address value data s
  have ha := fitsUnsigned_emod address
  have hv := fitsUnsigned_emod value
  have haddr := reduceAddr_emod address
  refine ⟨?_, ?_, ?_, ?_, fun hlen => ?_⟩
  · refine decode_encode_of_truncated (j := .readByte (address % 65536)) ha ?_ ?_
    · simp only [encode, operandField_emod]
    · rw [exec_readByte, exec_readByte, s.readByte_reduce haddr]
  · refine decode_encode_of_truncated (j := .writeByte (address % 65536) (value % 65536))
      (Bool.and_eq_true_iff.2 ⟨ha, hv⟩) ?_ ?_
    · simp only [encode, operandField_emod]
    · rw [exec_writeByte, exec_writeByte, reduceByte_emod, s.storeByte_reduce haddr]
  · refine decode_encode_of_truncated (j := .readWord (address % 65536)) ha ?_ ?_
    · simp only [encode, operandField_emod]
    · rw [exec_readWord, exec_readWord, s.readWord_reduce haddr]
  · refine decode_encode_of_truncated (j := .writeWord (address % 65536) (value % 65536))
      (Bool.and_eq_true_iff.2 ⟨ha, hv⟩) ?_ ?_
    · simp only [encode, operandField_emod]
    · rw [exec_writeWord, exec_writeWord, reduceWord_emod, s.storeWord_reduce haddr]
  · refine decode_encode_of_truncated (j := .loadProgram data (address % 65536))
      (Bool.and_eq_true_iff.2 ⟨(fitsLength_iff data).2 hlen, ha⟩) ?_
      (exec_loadProgram_reduce data haddr s)
    simp only [encode, operandField_emod]

end Sys2Proof.Machine

namespace Sys2Proof

/-! ### Operations read from the words of their row -/

/-- A word with fields and a payload that its row's format takes decodes to the row's operation (R88). -/
theorem decode_of_takes {op : Opcode} {a b c : Word} {p : List Byte} {i : Instr}
    (h : op.format.Takes a b c p) (hi : op.operation (commandWord op a b c) p = i) :
    decode ⟨commandWord op a b c, p⟩ = .ok i :=
  (decode_commandWord_iff op a b c p i).2 ⟨h, hi.symm⟩

/-- The address operand that a word carries in the field A (R83). -/
theorem unsignedOperand_fieldA (op : Opcode) (a b c : Word) :
    unsignedOperand (fieldA (commandWord op a b c)) = a.toNat := by
  rw [fieldA_commandWord, unsignedOperand]

/-- The value operand that a word carries in the field B (R84). -/
theorem unsignedOperand_fieldB (op : Opcode) (a b c : Word) :
    unsignedOperand (fieldB (commandWord op a b c)) = b.toNat := by
  rw [fieldB_commandWord, unsignedOperand]

end Sys2Proof

namespace Sys2Proof.Machine

/-! ### What the other MemoryBus operations answer -/

theorem exec_getStats (s : State) : exec .getStats s
    = s.answer 0 [0x00, 0x40, 0x00, 0x00, 0x00, 0xC0, 0x00, 0x00, 0x00, 0x00, 0x01, 0x00,
        flagByte s.romLoaded] := rfl

theorem exec_clearRAM (s : State) : exec .clearRAM s = s.zeroRAM.answer 0 [] := rfl

theorem exec_getMemoryView (s : State) : exec .getMemoryView s = s.answer 0 s.memoryView := rfl

/-- The checks of `loadProgram` in their order, and the load (R126, R216). -/
theorem exec_loadProgram (d : List Byte) (a : Int) (s : State) : exec (.loadProgram d a) s
    = if d.length = 0 then s.answer (BitVec.ofNat 16 (reduceAddr a)) []
      else if reduceAddr a < 0x4000 then s.raise .programTargetsROM
      else if (reduceAddr a + d.length - 1) % 65536 < reduceAddr a then s.raise .programTooLarge
      else (s.storeBytes (reduceAddr a : Int) d).answer (BitVec.ofNat 16 (reduceAddr a)) [] := rfl

/-- The padding of a short image reads like what lies past its end (R121). -/
theorem getD_append_zeros (d : List Byte) (n i : Nat) :
    (d ++ List.replicate n 0).getD i 0 = d.getD i 0 := by
  rcases Nat.lt_or_ge i d.length with hi | hi
  · rw [List.getD_append _ _ _ _ hi]
  · rw [List.getD_append_right _ _ _ _ hi, List.getD_eq_default d _ hi,
      List.getD_eq_getElem?_getD, List.getElem?_getD_replicate_default_eq]

/-- An image of either accepted length is installed, with zeros where it ends (R121). -/
theorem exec_loadROM_of_length {data : List Byte}
    (h : data.length = 16384 ∨ data.length = 14336) (s : State) :
    ∃ d : List Byte, exec (.loadROM data) s = (s.installROM d).markLoaded.answer 0 [] ∧
      ∀ i, d.getD i 0 = data.getD i 0 := by
  simp only [exec, execLoadROM]
  rcases h with h | h
  · exact ⟨data, if_pos h, fun _ => rfl⟩
  · refine ⟨_, ?_, getD_append_zeros data (Config.romSize - Config.romImageShort)⟩
    rw [if_neg (by rw [h]; decide), if_pos h]

/-- Any other length fails (R211). -/
theorem exec_loadROM_of_length_ne {data : List Byte}
    (h : ¬ (data.length = 16384 ∨ data.length = 14336)) (s : State) :
    exec (.loadROM data) s = s.raise .invalidROMSize := by
  obtain ⟨hfull, hshort⟩ := not_or.1 h
  simp only [exec, execLoadROM, if_neg hfull, if_neg hshort]

/-! ### Responses to an operation -/

/-- A response is given on the interface and nowhere else (R91). -/
theorem answered_respond {s u : State} (h : SameInterface s u) (r : Response) :
    Answered s (u.respond r) r := by
  obtain ⟨hcommands, hresponses⟩ := h
  exact ⟨by rw [State.respond_responses, hresponses], by rw [State.respond_commands, hcommands]⟩

/-- A query or a failure: the response is all that is new (R217). -/
theorem sameBlock_and_answered_respond (s : State) (r : Response) :
    SameBlock s (s.respond r) ∧ Answered s (s.respond r) r :=
  ⟨sameBlock_respond s r, answered_respond (SameInterface.rfl s) r⟩

/-! ### Bytes and words as numbers -/

theorem toNat_reduceByte (v : Int) : ((reduceByte v).toNat : Int) = v % 256 := by
  rw [reduceByte, BitVec.toNat_ofInt]
  omega

theorem toNat_reduceWord (v : Int) : ((reduceWord v).toNat : Int) = v % 65536 := by
  rw [reduceWord, BitVec.toNat_ofInt]
  omega

theorem toNat_byteValue (b : Byte) : (byteValue b).toNat = b.toNat := by
  rw [byteValue, BitVec.toNat_setWidth]
  omega

theorem toNat_lowByte (w : Word) : (lowByte w).toNat = w.toNat % 256 := by
  rw [lowByte, toNat_extractLsb'_word]
  omega

theorem toNat_highByte (w : Word) : (highByte w).toNat = w.toNat / 256 := by
  have := w.isLt
  rw [highByte, toNat_extractLsb'_word]
  omega

/-! ### Byte and word accesses -/

/-- The read multiplexer, in terms of the address modulo 65536 (R54). -/
theorem State.readByte_emod (s : State) (a : Int) :
    s.readByte a = if a % 65536 < 0x4000 then s.rom.read (a % 65536).toNat
      else s.ram.read (a % 65536 - 0x4000).toNat := by
  have hred := reduceAddr_eq a
  split
  · rw [s.readByte_low (by omega), show (a % 65536).toNat = reduceAddr a by omega]
  · rw [s.readByte_high (by omega),
      show (a % 65536 - 0x4000).toNat = reduceAddr a - 0x4000 by omega]

/-- A word written where both bytes are writable is read back (R62; 90_conflicts.md C2). -/
theorem State.readWord_storeWord (s : State) {a : Int} (w : Word) (hlow : writable a = true)
    (hhigh : writable (a + 1) = true) : (s.storeWord a w).readWord a = w := by
  rw [State.readWord, s.readByte_storeWord, if_pos ⟨rfl, hhigh⟩, s.readByte_storeWord,
    if_neg fun h => reduceAddr_succ_ne a h.1.symm, if_pos ⟨rfl, hlow⟩, joinBytes_split]

theorem State.respond_readWord (s : State) (r : Response) (a : Int) :
    (s.respond r).readWord a = s.readWord a := rfl

/-- A run of byte writes that stays within RAM leaves `rom` as it is (R126). -/
theorem State.storeBytes_rom (s : State) {base : Int} {d : List Byte} (hbase : 0x4000 ≤ base)
    (hend : base + d.length ≤ 65536) : (s.storeBytes base d).rom = s.rom := by
  induction d generalizing s base with
  | nil => rfl
  | cons b bs ih =>
    have hred := reduceAddr_eq base
    rw [List.length_cons] at hend
    rw [State.storeBytes_cons, ih _ (by omega) (by omega), s.storeByte_ram_eq b (by omega)]

/-! ### The MemoryBus operations -/

/-- Settles O22: the sizes are constants and the flag is read, so only the response is added. -/
theorem getStatsReportsSizesAndFlag : Obligations.GetStatsReportsSizesAndFlag :=
  ⟨rfl, fun s => ⟨_, exec_getStats s, sameBlock_and_answered_respond s _⟩⟩

/-- Settles O23: both accepted lengths install an image that reads like the data with zeros after it. -/
theorem loadROMReplacesTheImage : Obligations.LoadROMReplacesTheImage := by
  refine ⟨fun n data hlen => decode_of_takes (op := .loadROM) ⟨rfl, rfl, hlen⟩ rfl,
    fun data s => ?_⟩
  split
  · next h =>
    obtain ⟨d, hexec, hd⟩ := exec_loadROM_of_length h s
    refine ⟨_, hexec, answered_respond ⟨rfl, rfl⟩ _, rfl, rfl, rfl, fun a => ?_⟩
    rw [State.respond_readByte, State.markLoaded_readByte, State.readByte_installROM, hd]
    have hred := reduceAddr_eq a
    rw [← hred, Int.toNat_natCast]
    exact if_congr (by omega) rfl rfl
  · next h => exact ⟨_, exec_loadROM_of_length_ne h s, sameBlock_and_answered_respond s _⟩

/-- Settles O24: the answer is the read multiplexer's byte, zero-extended. -/
theorem readByteReturnsTheByte : Obligations.ReadByteReturnsTheByte := by
  refine ⟨fun a => decode_of_takes (op := .readByte) ⟨rfl, rfl, rfl⟩ ?_, fun address s =>
    ⟨_, _, exec_readByte address s, sameBlock_respond s _,
      answered_respond (SameInterface.rfl s) _, ?_⟩⟩
  · rw [Opcode.operation, unsignedOperand_fieldA]
  · rw [toNat_byteValue, s.readByte_emod]

/-- Settles O25: the write path decides what every address reads afterwards. -/
theorem writeByteWritesOneByte : Obligations.WriteByteWritesOneByte := by
  refine ⟨fun a v => decode_of_takes (op := .writeByte) ⟨rfl, rfl⟩ ?_, fun address value s =>
    ⟨_, exec_writeByte address value s, answered_respond (sameInterface_storeByte ..) _,
      ⟨rfl, rfl⟩, fun b => ?_⟩⟩
  · rw [Opcode.operation, unsignedOperand_fieldA, unsignedOperand_fieldB]
  · rw [State.respond_readByte, s.readByte_storeByte]
    simp only [writable_iff]
    split
    · exact toNat_reduceByte value
    · rfl

/-- Settles O27: the word joins two byte reads, and a read sees its address reduced. -/
theorem readWordJoinsTwoBytes : Obligations.ReadWordJoinsTwoBytes := by
  refine ⟨fun a => decode_of_takes (op := .readWord) ⟨rfl, rfl, rfl⟩ ?_, fun address s =>
    ⟨_, _, exec_readWord address s, sameBlock_respond s _,
      answered_respond (SameInterface.rfl s) _, ?_⟩⟩
  · rw [Opcode.operation, unsignedOperand_fieldA]
  · rw [State.readWord, joinBytes_toNat, s.readByte_reduce (reduceAddr_reduceAddr address),
      s.readByte_reduce (reduceAddr_reduceAddr (address + 1))]

/-- Settles O28: the word write is two byte writes at distinct addresses, so the order in which an address is
compared with them does not matter. -/
theorem writeWordWritesTwoBytes : Obligations.WriteWordWritesTwoBytes := by
  refine ⟨fun a v => decode_of_takes (op := .writeWord) ⟨rfl, rfl⟩ ?_, fun address value s =>
    ⟨_, exec_writeWord address value s, answered_respond (sameInterface_storeWord ..) _,
      ⟨rfl, rfl⟩, fun b => ?_⟩⟩
  · rw [Opcode.operation, unsignedOperand_fieldA, unsignedOperand_fieldB]
  · have hne := reduceAddr_succ_ne address
    have hword := toNat_reduceWord value
    rw [State.respond_readByte, s.readByte_storeWord]
    simp only [writable_iff]
    by_cases hlow : reduceAddr b = reduceAddr address ∧ 0x3C00 ≤ reduceAddr address
    · rw [if_neg (by omega), if_pos hlow, if_pos hlow, toNat_lowByte]
      omega
    · rw [if_neg hlow, if_neg hlow]
      split
      · rw [toNat_highByte]
        omega
      · rfl

/-- Settles O29: in the range both bytes are writable, and the response between the two operations is not
read. -/
theorem wordRoundTrip : Obligations.WordRoundTrip := by
  intro address value s hstart hend
  have hhigh : 0x3C00 ≤ reduceAddr (address + 1) := by
    have := reduceAddr_eq address
    have := reduceAddr_eq (address + 1)
    omega
  refine ⟨_, _, _, exec_writeWord address value s, exec_readWord address _,
    answered_respond (SameInterface.rfl _) _, ?_⟩
  rw [State.respond_readWord,
    s.readWord_storeWord _ ((writable_iff _).2 hstart) ((writable_iff _).2 hhigh),
    toNat_reduceWord]

/-- Settles O30: the checks are those of the operation, and the load is a run of byte writes. -/
theorem loadProgramChecksThenWrites : Obligations.LoadProgramChecksThenWrites := by
  refine ⟨fun a n data hlen => decode_of_takes (op := .loadProgram) ⟨rfl, hlen⟩ ?_,
    fun data address s => ?_⟩
  · rw [Opcode.operation, unsignedOperand_fieldA]
  · rw [exec_loadProgram]
    split_ifs with hempty hrom hwrap
    · exact ⟨_, rfl, sameBlock_and_answered_respond s _⟩
    · exact ⟨_, rfl, sameBlock_and_answered_respond s _⟩
    · exact ⟨_, rfl, sameBlock_and_answered_respond s _⟩
    · refine ⟨_, rfl, answered_respond (sameInterface_storeBytes ..) _,
        ⟨State.storeBytes_romLoaded .., State.storeBytes_textMode ..⟩, ?_⟩
      rintro b k rfl
      rw [State.respond_readByte, s.readByte_storeBytes]
      simp only [writable_iff, lastIndex]

/-- Settles O31: a load that passes the checks with a length the port can carry ends at or before 0xFFFF. -/
theorem loadProgramKeepsROM : Obligations.LoadProgramKeepsROM := by
  intro data address s t hlen hexec
  obtain ⟨u, r, rfl, hu⟩ := effect_of_exec hexec
  rw [State.respond_rom]
  cases hu with
  | nothing => rfl
  | program hbase hend => exact s.storeBytes_rom (by omega) (by omega)

/-- Settles O32: `ram` alone is replaced, by the zero-filled array. -/
theorem clearRAMZeroesRAM : Obligations.ClearRAMZeroesRAM :=
  ⟨rfl, fun s => ⟨_, exec_clearRAM s, answered_respond ⟨rfl, rfl⟩ _, ⟨rfl, rfl⟩, rfl,
    s.readByte_zeroRAM⟩⟩

/-- Settles O33: the payload is the memory view, read address by address. -/
theorem memoryViewIsEveryByte : Obligations.MemoryViewIsEveryByte := by
  refine ⟨rfl, fun s => ⟨_, _, exec_getMemoryView s, sameBlock_respond s _,
    answered_respond (SameInterface.rfl s) _, s.memoryView_length, fun k hk => ?_⟩⟩
  exact s.memoryView_getElem? hk

end Sys2Proof.Machine

namespace Sys2Proof

/-- The first coordinate that a word carries in the field A (R85). -/
theorem signedOperand_fieldA (op : Opcode) (a b c : Word) :
    signedOperand (fieldA (commandWord op a b c)) = a.toInt := by
  rw [fieldA_commandWord, signedOperand]

/-- The second coordinate that a word carries in the field B (R85). -/
theorem signedOperand_fieldB (op : Opcode) (a b c : Word) :
    signedOperand (fieldB (commandWord op a b c)) = b.toInt := by
  rw [fieldB_commandWord, signedOperand]

end Sys2Proof

namespace Sys2Proof.Machine

/-! ### Pixels and where they are kept -/

/-- The block address as R151 writes it. -/
theorem blockAddr_eq (x y : Int) : blockAddr x y = 0x3C00 + y / 3 * 64 + x / 2 := by
  simp only [blockAddr, Nat.cast_ofNat]

/-- The pattern bit as R152 writes it. -/
theorem bitIndex_eq (x y : Int) : bitIndex x y = (5 - (2 * (y % 3) + x % 2)).toNat := by
  simp only [bitIndex]

/-- A pixel of the canvas is determined by its block byte and its lane there (R151, R152, R160). -/
theorem eq_pixel_iff {x y x' y' : Int} (hxy : inBounds x y = true) (hxy' : inBounds x' y' = true) :
    (x', y') = (x, y) ↔ reduceAddr (blockAddr x' y') = reduceAddr (blockAddr x y) ∧
      bitIndex x' y' = bitIndex x y := by
  rw [inBounds_iff] at hxy hxy'
  rw [reduceAddr_eq_iff, blockAddr_eq, blockAddr_eq, bitIndex_eq, bitIndex_eq, Prod.mk.injEq]
  omega

/-- The test of a pixel as R153 and R157 write it. -/
theorem pixelOn_iff (b : Byte) (x y : Int) : pixelOn b x y = true ↔
    isGraphics b = true ∧ (b.toNat - 128).testBit (bitIndex x y) = true := by
  rw [pixelOn_eq, Bool.and_eq_true]
  refine and_congr_right fun hb => ?_
  rw [BitVec.getLsbD, pattern_toNat b hb]

/-- A pixel of a packed pattern is on when its lane is. -/
theorem pixelOn_pack (p : Pattern) (x y : Int) :
    pixelOn (pack p) x y = p.getLsbD (bitIndex x y) := by
  rw [pixelOn_eq, isGraphics_pack, pattern_pack, Bool.true_and]

/-- No pixel of a byte that is no graphics code is on (R157). -/
theorem pixelOn_of_not_isGraphics {b : Byte} (hb : ¬ isGraphics b = true) (x y : Int) :
    pixelOn b x y = false := by
  rw [pixelOn, Bool.eq_false_of_not_eq_true hb, Bool.false_and]

/-- A byte with a pixel on is a graphics code. -/
theorem isGraphics_of_pixelOn {b : Byte} {x y : Int} (h : pixelOn b x y = true) :
    isGraphics b = true :=
  ((pixelOn_iff b x y).1 h).1

/-! ### The bytes that SET and RESET store -/

/-- The byte that a SET of the pixel puts in place of `b` (R155). -/
def setByte (b : Byte) (x y : Int) : Byte := pack (basePattern b ||| bitMask x y)

/-- The byte that a RESET of the pixel puts in place of the graphics code `b` (R156). -/
def resetByte (b : Byte) (x y : Int) : Byte := pack (pattern b &&& ~~~ bitMask x y)

theorem basePattern_toNat (b : Byte) :
    (basePattern b).toNat = if isGraphics b = true then b.toNat - 128 else 0 := by
  rw [basePattern]
  split
  · next hb => exact pattern_toNat b hb
  · rfl

theorem setByte_toNat (b : Byte) (x y : Int) : (setByte b x y).toNat
    = 128 + ((if isGraphics b = true then b.toNat - 128 else 0) ||| 2 ^ bitIndex x y) := by
  rw [setByte, pack_toNat, BitVec.toNat_or, basePattern_toNat, bitMask_toNat]

theorem resetByte_toNat {b : Byte} (hb : isGraphics b = true) (x y : Int) :
    (resetByte b x y).toNat = 128 + ((b.toNat - 128) &&& (63 - 2 ^ bitIndex x y)) := by
  rw [resetByte, pack_toNat, BitVec.toNat_and, pattern_toNat b hb, BitVec.toNat_not, bitMask_toNat]

/-- The lanes a SET starts from are those of the pixels that are on, on a graphics code or not
(R155). -/
theorem getLsbD_basePattern (b : Byte) (x y : Int) :
    (basePattern b).getLsbD (bitIndex x y) = pixelOn b x y := by
  rw [basePattern, pixelOn_eq]
  cases isGraphics b
  · exact BitVec.getLsbD_zero
  · rfl

/-- A SET turns its own lane on, and no pixel of another lane changes. -/
theorem pixelOn_setByte (b : Byte) (x y x' y' : Int) : pixelOn (setByte b x y) x' y'
    = (decide (bitIndex x' y' = bitIndex x y) || pixelOn b x' y') := by
  rw [setByte, pixelOn_pack, getLsbD_or_bitMask _ _ _ _ (bitIndex_lt x' y'), getLsbD_basePattern]

/-- A RESET turns its own lane off, and no pixel of another lane changes. -/
theorem pixelOn_resetByte {b : Byte} (hb : isGraphics b = true) (x y x' y' : Int) :
    pixelOn (resetByte b x y) x' y'
      = (!decide (bitIndex x' y' = bitIndex x y) && pixelOn b x' y') := by
  rw [resetByte, pixelOn_pack, getLsbD_andNot_bitMask _ _ _ _ (bitIndex_lt x' y'), pixelOn_eq, hb,
    Bool.true_and]

/-! ### Writing a block byte -/

/-- A write to the block byte of a pixel on the canvas takes effect there and nowhere else
(R55, R70). -/
theorem State.readByte_storeByte_block (s : State) {x y : Int} (hxy : inBounds x y = true)
    (v : Byte) (b : Int) : (s.storeByte (blockAddr x y) v).readByte b
      = if reduceAddr b = reduceAddr (blockAddr x y) then v else s.readByte b := by
  have hw : writable (blockAddr x y) = true := (writable_iff _).2 (blockAddr_range hxy).1
  rw [s.readByte_storeByte, hw]
  exact if_congr (and_iff_left rfl) rfl rfl

/-- Such a write leaves `ram` as it is. -/
theorem State.storeByte_block_ram (s : State) {x y : Int} (hxy : inBounds x y = true) (v : Byte) :
    (s.storeByte (blockAddr x y) v).ram = s.ram := by
  obtain ⟨hlow, hhigh⟩ := blockAddr_range hxy
  rw [s.storeByte_video_eq v hlow hhigh]

/-! ### What the pixel operations answer -/

theorem exec_setPixel_of_inBounds {x y : Int} (hxy : inBounds x y = true) (s : State) :
    exec (.setPixel x y) s
      = (s.storeByte (blockAddr x y) (setByte (s.readByte (blockAddr x y)) x y)).answer 1 [] :=
  if_pos hxy

theorem exec_setPixel_of_not_inBounds {x y : Int} (hxy : ¬ inBounds x y = true) (s : State) :
    exec (.setPixel x y) s = s.answer 0 [] :=
  if_neg hxy

/-- A RESET that applies: in bounds and on a graphics code (R156). -/
theorem exec_resetPixel_of_applies {x y : Int} {s : State}
    (h : inBounds x y = true ∧ isGraphics (s.readByte (blockAddr x y)) = true) :
    exec (.resetPixel x y) s
      = (s.storeByte (blockAddr x y) (resetByte (s.readByte (blockAddr x y)) x y)).answer 1 [] :=
  (if_pos h.1).trans (if_pos h.2)

/-- A RESET out of bounds or on a byte that is no graphics code (R156). -/
theorem exec_resetPixel_of_not_applies {x y : Int} {s : State}
    (h : ¬ (inBounds x y = true ∧ isGraphics (s.readByte (blockAddr x y)) = true)) :
    exec (.resetPixel x y) s = s.answer 0 [] := by
  by_cases hxy : inBounds x y = true
  · exact (if_pos hxy).trans (if_neg (not_and.1 h hxy))
  · exact if_neg hxy

/-- A POINT answers for the pixel in bounds, and 0 outside (R157). -/
theorem exec_pointPixel (x y : Int) (s : State) : exec (.pointPixel x y) s
    = s.answer (intValue (pointResult
        (inBounds x y && pixelOn (s.readByte (blockAddr x y)) x y))) [] := by
  by_cases hxy : inBounds x y = true
  · rw [hxy, Bool.true_and]
    exact if_pos hxy
  · rw [Bool.eq_false_of_not_eq_true hxy, Bool.false_and]
    exact if_neg hxy

theorem exec_getGraphicsSnapshot (s : State) :
    exec .getGraphicsSnapshot s = s.answer 0 s.canvas := rfl

/-- The VALUE of a POINT reads back as -1 or 0 (R93, R157). -/
theorem toInt_intValue_pointResult (on : Bool) :
    (intValue (pointResult on)).toInt = if on = true then -1 else 0 := by
  cases on <;> rfl

/-! ### One pixel after a SET or a RESET -/

/-- After a SET its pixel is on, and every other pixel of the canvas is as before (R155, R159). -/
theorem pixelOn_after_setPixel {x y x' y' : Int} {s t : State} (hxy : inBounds x y = true)
    (hxy' : inBounds x' y' = true) (h : exec (.setPixel x y) s = .next t) :
    pixelOn (t.readByte (blockAddr x' y')) x' y'
      = (decide ((x', y') = (x, y)) || pixelOn (s.readByte (blockAddr x' y')) x' y') := by
  rw [exec_setPixel_of_inBounds hxy] at h
  cases h
  rw [State.respond_readByte, s.readByte_storeByte_block hxy]
  split
  · next hblock =>
    rw [pixelOn_setByte, s.readByte_reduce hblock]
    simp only [eq_pixel_iff hxy hxy', hblock, true_and]
  · next hblock => simp only [eq_pixel_iff hxy hxy', hblock, false_and, decide_false, Bool.false_or]

/-- After a RESET its pixel is off, and every other pixel of the canvas is as before
(R156, R159). -/
theorem pixelOn_after_resetPixel {x y x' y' : Int} {s t : State} (hxy : inBounds x y = true)
    (hxy' : inBounds x' y' = true) (h : exec (.resetPixel x y) s = .next t) :
    pixelOn (t.readByte (blockAddr x' y')) x' y'
      = (!decide ((x', y') = (x, y)) && pixelOn (s.readByte (blockAddr x' y')) x' y') := by
  by_cases hb : isGraphics (s.readByte (blockAddr x y)) = true
  · rw [exec_resetPixel_of_applies ⟨hxy, hb⟩] at h
    cases h
    rw [State.respond_readByte, s.readByte_storeByte_block hxy]
    split
    · next hblock =>
      rw [pixelOn_resetByte hb, s.readByte_reduce hblock]
      simp only [eq_pixel_iff hxy hxy', hblock, true_and]
    · next hblock =>
      simp only [eq_pixel_iff hxy hxy', hblock, false_and, decide_false, Bool.not_false,
        Bool.true_and]
  · rw [exec_resetPixel_of_not_applies fun h => hb h.2] at h
    cases h
    rw [State.respond_readByte]
    by_cases heq : (x', y') = (x, y)
    · cases heq
      rw [pixelOn_of_not_isGraphics hb, Bool.and_false]
    · rw [decide_eq_false heq, Bool.not_false, Bool.true_and]

/-! ### The pixel operations -/

/-- Settles O36: in bounds the SET is one byte write to the video window, of `setByte`. -/
theorem setPixelSetsOneBit : Obligations.SetPixelSetsOneBit := by
  refine ⟨fun a b => decode_of_takes (op := .setPixel) ⟨rfl, rfl⟩ ?_, fun x y s => ?_⟩
  · rw [Opcode.operation, signedOperand_fieldA, signedOperand_fieldB]
  · simp only [← inBounds_iff, ← isGraphics_iff, ← blockAddr_eq, ← bitIndex_eq]
    split
    · next hxy =>
      refine ⟨_, exec_setPixel_of_inBounds hxy s, answered_respond (sameInterface_storeByte ..) _,
        ⟨rfl, rfl⟩, s.storeByte_block_ram hxy _, fun b => ?_⟩
      rw [State.respond_readByte, s.readByte_storeByte_block hxy]
      by_cases hb : reduceAddr b = reduceAddr (blockAddr x y)
      · rw [if_pos hb, if_pos hb, ← s.readByte_reduce hb, setByte_toNat]
      · rw [if_neg hb, if_neg hb]
    · next hxy =>
      exact ⟨_, exec_setPixel_of_not_inBounds hxy s, sameBlock_and_answered_respond s _⟩

/-- Settles O37: where it applies, a RESET is one byte write to the window, of `resetByte`. -/
theorem resetPixelClearsOneBit : Obligations.ResetPixelClearsOneBit := by
  refine ⟨fun a b => decode_of_takes (op := .resetPixel) ⟨rfl, rfl⟩ ?_, fun x y s => ?_⟩
  · rw [Opcode.operation, signedOperand_fieldA, signedOperand_fieldB]
  · simp only [← inBounds_iff, ← isGraphics_iff, ← blockAddr_eq, ← bitIndex_eq]
    split
    · next h =>
      refine ⟨_, exec_resetPixel_of_applies h, answered_respond (sameInterface_storeByte ..) _,
        ⟨rfl, rfl⟩, s.storeByte_block_ram h.1 _, fun b => ?_⟩
      rw [State.respond_readByte, s.readByte_storeByte_block h.1]
      by_cases hb : reduceAddr b = reduceAddr (blockAddr x y)
      · rw [if_pos hb, if_pos hb, resetByte_toNat h.2, s.readByte_reduce hb]
      · rw [if_neg hb, if_neg hb]
    · next h => exact ⟨_, exec_resetPixel_of_not_applies h, sameBlock_and_answered_respond s _⟩

/-- Settles O38: the answer is that of the pixel test, which is the bit of the rule. -/
theorem pointPixelTestsOneBit : Obligations.PointPixelTestsOneBit := by
  refine ⟨fun a b => decode_of_takes (op := .pointPixel) ⟨rfl, rfl⟩ ?_, fun x y s =>
    ⟨_, _, exec_pointPixel x y s, sameBlock_respond s _,
      answered_respond (SameInterface.rfl s) _, ?_⟩⟩
  · rw [Opcode.operation, signedOperand_fieldA, signedOperand_fieldB]
  · simp only [← blockAddr_eq, ← bitIndex_eq]
    rw [toInt_intValue_pointResult]
    refine if_congr ?_ rfl rfl
    rw [Bool.and_eq_true, inBounds_iff, pixelOn_iff, isGraphics_iff, and_assoc (a := 128 ≤ _)]

/-- Settles O39: the payload is the canvas, whose bytes are the pixel tests. -/
theorem graphicsSnapshotIsTheCanvas : Obligations.GraphicsSnapshotIsTheCanvas := by
  refine ⟨rfl, fun s => ⟨_, _, exec_getGraphicsSnapshot s, sameBlock_respond s _,
    answered_respond (SameInterface.rfl s) _, s.canvas_length, ?_⟩⟩
  rintro x y b hx hy rfl
  have haddr : ((0x3C00 + y / 3 * 64 + x / 2 : Nat) : Int) = blockAddr x y := by
    rw [blockAddr_eq]
    omega
  have hbit : 5 - (2 * (y % 3) + x % 2) = bitIndex x y := by
    rw [bitIndex_eq]
    omega
  rw [s.canvas_getElem? hx hy, State.pixel, flagByte, haddr, hbit]
  exact congrArg some (if_congr (by rw [pixelOn_iff, isGraphics_iff, and_assoc]) rfl rfl)

/-- Settles O40: a POINT answers for the pixel, which a SET turns on and a RESET off; the RESET
applies because a byte with a pixel on is a graphics code. -/
theorem setPointResetPoint : Obligations.SetPointResetPoint := by
  intro x y s hxy
  obtain ⟨t, -, hset, -⟩ := exec_answers (.setPixel x y) s
  have hon : pixelOn (t.readByte (blockAddr x y)) x y = true := by
    rw [pixelOn_after_setPixel hxy hxy hset, decide_eq_true rfl, Bool.true_or]
  have hreset := exec_resetPixel_of_applies ⟨hxy, isGraphics_of_pixelOn hon⟩
  have hoff := pixelOn_after_resetPixel hxy hxy hreset
  rw [decide_eq_true rfl, Bool.not_true, Bool.false_and] at hoff
  refine ⟨t, _, _, _, hset, exec_pointPixel x y t, ?_, hreset,
    answered_respond (sameInterface_storeByte ..) _, exec_pointPixel x y _, ?_⟩
  · rw [hxy, hon]
    exact answered_respond (SameInterface.rfl t) _
  · rw [hxy, hoff]
    exact answered_respond (SameInterface.rfl _) _

/-- Settles O41: what a SET and a RESET leave of the other pixels. In a block that held no graphics
code no pixel was on, so a SET keeps the others there as well, and its premise is not used. -/
theorem otherPixelsStay : Obligations.OtherPixelsStay := by
  intro x y x' y' s t hxy hxy' hne
  refine ⟨fun hset _ => ?_, fun hreset => ?_⟩
  · rw [pixelOn_after_setPixel hxy hxy' hset, decide_eq_false hne, Bool.false_or]
  · rw [pixelOn_after_resetPixel hxy hxy' hreset, decide_eq_false hne, Bool.not_false,
      Bool.true_and]

/-! ### The codes from 192 on -/

/-- The codes from 192 on are no graphics codes (R153). -/
theorem not_isGraphics_of_le {b : Byte} (hb : 192 ≤ b.toNat) : ¬ isGraphics b = true := by
  rw [isGraphics_iff]
  omega

/-- The codes from 192 on repeat the glyphs of those from 128 on (R194). -/
theorem charRom_sub_64 {b : Byte} (hb : 192 ≤ b.toNat) : charRom b = charRom (b - 64) := by
  have hsub : (b - 64).toNat = b.toNat - 64 := BitVec.toNat_sub_of_le (BitVec.le_def.2 (by
    rw [show (64 : Byte).toNat = 64 from rfl]; omega))
  have hlt := b.isLt
  rw [charRom, charRom, dif_neg (by omega), if_neg (by omega), dif_neg (by omega),
    if_pos (by omega)]

/-- Settles O53: such a byte is no graphics code, so no pixel of it is on and no RESET applies. -/
theorem highCodesAreDrawnNotQueried : Obligations.HighCodesAreDrawnNotQueried := by
  intro x y s hxy hb
  have hg := not_isGraphics_of_le hb
  refine ⟨charRom_sub_64 hb, ⟨_, exec_pointPixel x y s, ?_⟩,
    _, exec_resetPixel_of_not_applies fun h => hg h.2, sameBlock_and_answered_respond s _⟩
  rw [hxy, pixelOn_of_not_isGraphics hg]
  exact answered_respond (SameInterface.rfl s) _

end Sys2Proof.Machine

namespace Sys2Proof.Machine

/-! ### Runs of writes that stay in the video window -/

/-- The cell address as R71 writes it. -/
theorem cellAddr_eq_add (row col : Int) : cellAddr row col = 0x3C00 + row * 64 + col := by
  simp only [cellAddr, Nat.cast_ofNat]

/-- A byte write below 0x4000 leaves `ram` as it is (R55, R56). -/
theorem State.storeByte_ram_of_lt (s : State) {a : Int} (v : Byte) (h : reduceAddr a < 0x4000) :
    (s.storeByte a v).ram = s.ram :=
  if_neg fun hram => absurd ((region_eq_iff _).1.1 hram) (not_le.2 h)

/-- A run of byte writes that ends below 0x4000 leaves `ram` as it is (R170). -/
theorem State.storeBytes_ram (s : State) {base : Int} {d : List Byte} (hbase : 0 ≤ base)
    (hend : base + d.length ≤ 0x4000) : (s.storeBytes base d).ram = s.ram := by
  induction d generalizing s base with
  | nil => rfl
  | cons b bs ih =>
    have hred := reduceAddr_eq base
    rw [List.length_cons] at hend
    rw [State.storeBytes_cons, ih _ (by omega) (by omega), s.storeByte_ram_of_lt b (by omega)]

/-- A fill that ends below 0x4000 leaves `ram` as it is (R171). -/
theorem State.fillBytes_ram (s : State) {base : Int} (v : Byte) {n : Nat} (hbase : 0 ≤ base)
    (hend : base + n ≤ 0x4000) : (s.fillBytes base v n).ram = s.ram := by
  induction n with
  | zero => rfl
  | succ n ih =>
    have hred := reduceAddr_eq (base + n)
    rw [State.fillBytes_succ, State.storeByte_ram_of_lt _ v (by omega), ih (by omega)]

/-- A run of writable bytes that does not wrap puts each byte at its own address (R170). -/
theorem State.readByte_storeBytes_range (s : State) {base b : Nat} {d : List Byte}
    (hbase : 0x3C00 ≤ base) (hend : base + d.length ≤ 65536) (hb : b < 65536) :
    (s.storeBytes base d).readByte b
      = if base ≤ b ∧ b < base + d.length then d.getD (b - base) 0 else s.readByte b := by
  have hoff := reduceAddr_eq ((b : Int) - base)
  rw [s.readByte_storeBytes, lastIndex_of_le (by omega)]
  simp only [writable_iff, reduceAddr_natCast hb]
  by_cases hcell : base ≤ b ∧ b < base + d.length
  · have hindex : reduceAddr ((b : Int) - base) = b - base := by omega
    rw [if_pos hcell, if_pos (by omega), hindex]
  · rw [if_neg hcell, if_neg (by omega)]

/-- The 1024 bytes from 0x3C00 on are the video window, all of it writable (R70). -/
theorem offset_lt_and_writable_iff (b : Int) :
    reduceAddr (b - (Config.videoStart : Int)) < Config.videoSize ∧ writable b = true ↔
      0x3C00 ≤ reduceAddr b ∧ reduceAddr b ≤ 0x3FFF := by
  have hoff := reduceAddr_eq (b - (Config.videoStart : Int))
  have hred := reduceAddr_eq b
  simp only [Config.videoStart, Config.videoSize, Nat.cast_ofNat] at hoff ⊢
  rw [writable_iff]
  omega

/-! ### The flags -/

/-- A response is no flag (R20). -/
theorem sameFlags_respond {s u : State} (h : SameFlags s u) (r : Response) :
    SameFlags s (u.respond r) := h

theorem sameFlags_storeBytes (s : State) (a : Int) (d : List Byte) :
    SameFlags s (s.storeBytes a d) := ⟨State.storeBytes_romLoaded .., State.storeBytes_textMode ..⟩

theorem sameFlags_fillBytes (s : State) (a : Int) (v : Byte) (n : Nat) :
    SameFlags s (s.fillBytes a v n) := ⟨State.fillBytes_romLoaded .., State.fillBytes_textMode ..⟩

/-! ### What the text operations answer -/

theorem exec_getScreenSnapshot (s : State) : exec .getScreenSnapshot s = s.answer 0 s.screen := rfl

theorem exec_setTextMode (m : Bool) (s : State) :
    exec (.setTextMode m) s = (s.storeTextMode m).answer 0 [] := rfl

theorem exec_getTextMode (s : State) :
    exec .getTextMode s = s.answer (boolValue s.textMode) [] := rfl

/-! ### The text operations -/

/-- Settles O43: the operation is a run of byte writes from the cell address on. -/
theorem writeStringWritesCharacters : Obligations.WriteStringWritesCharacters := by
  refine ⟨fun r c n text hlen => decode_of_takes (op := .writeString) hlen ?_,
    fun text row col s => ⟨_, exec_writeString text row col s,
      answered_respond (sameInterface_storeBytes ..) _,
      sameFlags_respond (sameFlags_storeBytes ..) _, ?_⟩⟩
  · rw [Opcode.operation, signedOperand_fieldA, signedOperand_fieldB]
  · rintro b k rfl
    rw [State.respond_readByte, s.readByte_storeBytes, cellAddr_eq_add]
    simp only [writable_iff, lastIndex]

/-- Settles O44: such a run begins in the window and ends there. -/
theorem stringOnItsRowStaysOnScreen : Obligations.StringOnItsRowStaysOnScreen := by
  intro text row col s hrow hcol
  have hbase : cellAddr row col = ((0x3C00 + row * 64 + col : Nat) : Int) := by
    rw [cellAddr_eq_add]
    omega
  refine ⟨_, exec_writeString text row col s, ?_, fun b hb => ?_⟩
  · rw [State.respond_ram, hbase]
    exact s.storeBytes_ram (by omega) (by omega)
  · rw [State.respond_readByte, hbase]
    exact s.readByte_storeBytes_range (by omega) (by omega) hb

/-- Settles O45: the operation is a fill of the window. -/
theorem clearScreenWritesSpaces : Obligations.ClearScreenWritesSpaces := by
  refine ⟨rfl, fun s => ?_⟩
  obtain ⟨u, hexec, rfl⟩ := exec_clearScreen s
  refine ⟨_, hexec, answered_respond (sameInterface_fillBytes ..) _,
    sameFlags_respond (sameFlags_fillBytes ..) _, ?_, fun b => ?_⟩
  · rw [State.respond_ram, s.fillBytes_ram _ (by decide) (by decide)]
  · rw [State.respond_readByte, s.readByte_fillBytes]
    exact if_congr (offset_lt_and_writable_iff b) rfl rfl

/-- Settles O46: the payload is the screen, whose bytes are the cells. -/
theorem screenSnapshotIsTheGrid : Obligations.ScreenSnapshotIsTheGrid := by
  refine ⟨rfl, fun s => ⟨_, _, exec_getScreenSnapshot s, sameBlock_respond s _,
    answered_respond (SameInterface.rfl s) _, s.screen_length, fun r c hr hc => ?_⟩⟩
  have haddr : ((0x3C00 + r * 64 + c : Nat) : Int) = cellAddr r c := by
    rw [cellAddr_eq_add]
    omega
  rw [s.screen_getElem? hr hc, State.cell, haddr]

/-- Settles O47: `storeTextMode` leaves every other field. -/
theorem setTextModeStoresTheFlag : Obligations.SetTextModeStoresTheFlag :=
  ⟨rfl, rfl, fun m s => ⟨_, exec_setTextMode m s, answered_respond ⟨rfl, rfl⟩ _, rfl, rfl, rfl,
    rfl⟩⟩

/-- Settles O48: the flag is the VALUE, and only the response is added. -/
theorem getTextModeReadsTheFlag : Obligations.GetTextModeReadsTheFlag :=
  ⟨rfl, fun s => ⟨_, exec_getTextMode s, sameBlock_and_answered_respond s _⟩⟩

/-! ### `textMode` gates nothing -/

theorem State.storeTextMode_respond (s : State) (m : Bool) (r : Response) :
    (s.storeTextMode m).respond r = (s.respond r).storeTextMode m := rfl

theorem State.storeTextMode_storeByte (s : State) (m : Bool) (a : Int) (v : Byte) :
    (s.storeTextMode m).storeByte a v = (s.storeByte a v).storeTextMode m := rfl

theorem State.storeTextMode_storeBytes (s : State) (m : Bool) (a : Int) (d : List Byte) :
    (s.storeTextMode m).storeBytes a d = (s.storeBytes a d).storeTextMode m := by
  induction d generalizing s a with
  | nil => rfl
  | cons b bs ih =>
    rw [State.storeBytes_cons, State.storeTextMode_storeByte, ih, State.storeBytes_cons]

theorem State.storeTextMode_fillBytes (s : State) (m : Bool) (a : Int) (v : Byte) (n : Nat) :
    (s.storeTextMode m).fillBytes a v n = (s.fillBytes a v n).storeTextMode m := by
  induction n with
  | zero => rfl
  | succ n ih =>
    rw [State.fillBytes_succ, ih, State.storeTextMode_storeByte, State.fillBytes_succ]

/-- An operation other than `getTextMode`, begun with another `textMode`, ends in the same state but for
that flag: no condition it tests, no byte it writes and no answer it gives reads the flag (R175). -/
theorem exec_storeTextMode {i : Instr} (hi : i ≠ .getTextMode) (s : State) (m : Bool) :
    ∃ (t : State) (m' : Bool), exec i s = .next t ∧
      exec i (s.storeTextMode m) = .next (t.storeTextMode m') := by
  cases i with
  | getTextMode => exact absurd rfl hi
  | loadROM data =>
    simp only [exec, execLoadROM]
    split_ifs <;> exact ⟨_, m, rfl, rfl⟩
  | loadProgram data address =>
    simp only [exec_loadProgram, State.storeTextMode_storeBytes]
    split_ifs <;> exact ⟨_, m, rfl, rfl⟩
  | setPixel x y =>
    by_cases hxy : inBounds x y = true
    · exact ⟨_, m, exec_setPixel_of_inBounds hxy s, exec_setPixel_of_inBounds hxy _⟩
    · exact ⟨_, m, exec_setPixel_of_not_inBounds hxy s, exec_setPixel_of_not_inBounds hxy _⟩
  | resetPixel x y =>
    by_cases happlies : inBounds x y = true ∧ isGraphics (s.readByte (blockAddr x y)) = true
    · exact ⟨_, m, exec_resetPixel_of_applies happlies,
        exec_resetPixel_of_applies (s := s.storeTextMode m) happlies⟩
    · exact ⟨_, m, exec_resetPixel_of_not_applies happlies,
        exec_resetPixel_of_not_applies (s := s.storeTextMode m) happlies⟩
  | pointPixel x y => exact ⟨_, m, exec_pointPixel x y s, exec_pointPixel x y (s.storeTextMode m)⟩
  | writeString text row col =>
    simp only [exec_writeString, State.storeTextMode_storeBytes]
    exact ⟨_, m, rfl, rfl⟩
  | clearScreen =>
    obtain ⟨u, hexec, rfl⟩ := exec_clearScreen s
    obtain ⟨u', hexec', rfl⟩ := exec_clearScreen (s.storeTextMode m)
    rw [State.storeTextMode_fillBytes, State.storeTextMode_respond] at hexec'
    exact ⟨_, m, hexec, hexec'⟩
  | setTextMode mode => exact ⟨_, mode, rfl, rfl⟩
  | getStats | readByte | writeByte | readWord | writeWord | clearRAM | getMemoryView
  | getScreenSnapshot | getGraphicsSnapshot | getGlyph | renderFrame => exact ⟨_, m, rfl, rfl⟩

/-- Settles O49: the two final states differ in `textMode` alone. -/
theorem textModeGatesNothing : Obligations.TextModeGatesNothing := by
  intro i s m hi
  obtain ⟨t, m', hexec, hexec'⟩ := exec_storeTextMode hi s m
  exact ⟨t, _, hexec, hexec', rfl, rfl, rfl, rfl⟩

end Sys2Proof.Machine

namespace Sys2Proof.Machine

/-! ### The glyph table -/

/-- The codes below 128 have the glyphs of FONT (R192). -/
theorem charRom_of_lt {code : Byte} (h : code.toNat < 128) :
    charRom code = Config.font ⟨code.toNat, h⟩ :=
  dif_pos h

/-- A graphics code has the glyph of its own pattern (R193). -/
theorem charRom_of_isGraphics {code : Byte} (h : isGraphics code = true) :
    charRom code = graphicsGlyph (pattern code) := by
  rw [isGraphics_iff] at h
  rw [charRom, dif_neg (by omega), if_pos (by omega)]

/-- The glyph of a graphics code, with the pattern as a number (R153, R193). -/
theorem charRom_apply_of_isGraphics {code : Byte} (h : isGraphics code = true) (j : Fin 12)
    (k : Fin 8) :
    charRom code j k = (code.toNat % 64).testBit (5 - (2 * (j.val / 4) + k.val / 4)) := by
  have hmod : code.toNat - 128 = code.toNat % 64 := by
    rw [isGraphics_iff] at h
    omega
  rw [charRom_of_isGraphics h, graphicsGlyph, BitVec.getLsbD, pattern_toNat code h, hmod]

/-- From 128 on a glyph is that of the pattern `code mod 64`: the codes from 192 on repeat those 64
below, which have the same pattern (R193, R194). -/
theorem charRom_apply_of_ge {code : Byte} (h : 128 ≤ code.toNat) (j : Fin 12) (k : Fin 8) :
    charRom code j k = (code.toNat % 64).testBit (5 - (2 * (j.val / 4) + k.val / 4)) := by
  have hlt := code.isLt
  rcases Nat.lt_or_ge code.toNat 192 with hgraphics | hhigh
  · exact charRom_apply_of_isGraphics ((isGraphics_iff code).2 (by omega)) j k
  · have hsub : (code - 64).toNat = code.toNat - 64 :=
      BitVec.toNat_sub_of_le (BitVec.le_def.2 (h.trans' (by decide)))
    have hmod : (code.toNat - 64) % 64 = code.toNat % 64 := by omega
    rw [charRom_sub_64 hhigh, charRom_apply_of_isGraphics ((isGraphics_iff _).2 (by omega)), hsub,
      hmod]

/-- A render pixel of a graphics code's glyph shows the canvas pixel of its 4 by 4 square
(R152, R193). -/
theorem charRom_eq_pixelOn {b : Byte} (hb : isGraphics b = true) (px py : Nat) :
    charRom b (Fin.ofNat 12 py) (Fin.ofNat 8 px)
      = pixelOn b ((px / 4 : Nat) : Int) ((py / 4 : Nat) : Int) := by
  have hlane : 5 - (2 * (py % 12 / 4) + px % 8 / 4)
      = bitIndex ((px / 4 : Nat) : Int) ((py / 4 : Nat) : Int) := by
    rw [bitIndex_eq]
    omega
  rw [charRom_of_isGraphics hb, pixelOn_eq, hb, Bool.true_and, ← hlane]
  rfl

/-- Pixel `k` of a glyph's line `j` is bit `7 - k` of its byte (R191). -/
theorem getLsbD_glyphLine (g : Glyph) (j : Fin 12) (k : Fin 8) :
    (glyphLine g j).getLsbD (7 - k) = g j k := by
  rw [glyphLine, getLsbD_packLine _ k k.isLt, Fin.ofNat_val_eq_self, Fin.ofNat_val_eq_self]

/-! ### The frame -/

/-- Pixel (px, py) of the frame is bit `7 - px mod 8` of byte `py * 64 + px div 8` (R94, R197). -/
theorem State.getLsbD_frame (s : State) {px py : Nat} (hx : px < 512) (hy : py < 192) :
    (s.frame.getD (py * 64 + px / 8) 0).getLsbD (7 - px % 8) = s.framePixel py px := by
  rw [List.getD_eq_getElem?_getD, s.frame_getElem? hy (by omega), Option.getD_some,
    getLsbD_packLine _ _ (Nat.mod_lt _ (by decide)), Nat.div_add_mod]

/-- Byte `y * 128 + x` of the graphics snapshot is 1 exactly when the canvas pixel is on (R158). -/
theorem State.canvas_getD_eq_one_iff (s : State) {x y : Nat} (hx : x < 128) (hy : y < 48) :
    s.canvas.getD (y * 128 + x) 0 = 1 ↔ s.pixel x y = true := by
  rw [List.getD_eq_getElem?_getD, s.canvas_getElem? hx hy, Option.getD_some]
  cases s.pixel x y <;> decide

/-- The address of a cell, in natural numbers (R71). -/
theorem cellAddr_natCast (r c : Nat) :
    cellAddr (r : Int) (c : Int) = ((0x3C00 + r * 64 + c : Nat) : Int) := by
  rw [cellAddr_eq_add]
  omega

/-- The render pixel (px, py) over a graphics code shows the canvas pixel (px div 4, py div 4),
since the cell holds the block of that pixel (R71, R197). -/
theorem State.framePixel_eq_pixel (s : State) {px py : Nat}
    (h : isGraphics (s.cell (py / 12) (px / 8)) = true) :
    s.framePixel py px = s.pixel (px / 4) (py / 4) := by
  have hblock : blockAddr ((px / 4 : Nat) : Int) ((py / 4 : Nat) : Int)
      = cellAddr ((py / 12 : Nat) : Int) ((px / 8 : Nat) : Int) := by
    rw [blockAddr_eq_cellAddr, Nat.div_div_eq_div_mul, Nat.div_div_eq_div_mul]
  rw [State.framePixel, charRom_eq_pixelOn h, State.pixel, hblock, State.cell]

/-! ### The renderer operations -/

theorem exec_getGlyph (code : Byte) (s : State) : exec (.getGlyph code) s
    = s.answer 0 ((List.range 12).map (glyphLine (charRom code))) := rfl

theorem exec_renderFrame (s : State) : exec .renderFrame s = s.answer 0 s.frame := rfl

/-- The word of a `getGlyph`, whose field C is a zero byte above the code (R82). -/
theorem encode_getGlyph_word (code : Byte) : (encode (.getGlyph code)).word
    = (0x19 : Byte) ++ (0 : Byte) ++ (0 : Word) ++ (0 : Word) ++ (0 : Byte) ++ code := by
  have hfield : code.setWidth 16 = (0 : Byte) ++ code := BitVec.setWidth_eq_append (by decide)
  rw [BitVec.append_assoc, ← hfield]
  rfl

/-- Settles O50: the word is the operation's encoding, and each line is a line of the table. -/
theorem getGlyphReadsTheTable : Obligations.GetGlyphReadsTheTable := by
  refine ⟨fun code => ?_, fun code s => ⟨_, _, exec_getGlyph code s, sameBlock_respond s _,
    answered_respond (SameInterface.rfl s) _, by rw [List.length_map, List.length_range],
    fun j k => ?_⟩⟩
  · rw [← encode_getGlyph_word]
    exact decodeOfEncodeIsIdentity (.getGlyph code) rfl
  · rw [List.getD_eq_getElem?_getD, List.getElem?_map, List.getElem?_range j.isLt,
      Option.map_some, Option.getD_some, getLsbD_glyphLine]
    split
    · next hfont => rw [charRom_of_lt hfont]
    · next hfont => exact charRom_apply_of_ge (not_lt.1 hfont) j k

/-- Settles O51: the payload is the frame, whose pixels are those of the cells' glyphs. -/
theorem renderFrameShowsEachCell : Obligations.RenderFrameShowsEachCell := by
  refine ⟨rfl, fun s => ⟨_, _, exec_renderFrame s, sameBlock_respond s _,
    answered_respond (SameInterface.rfl s) _, s.frame_length, fun px py hx hy => ?_⟩⟩
  rw [s.getLsbD_frame hx hy, ← cellAddr_natCast]
  rfl

/-- Settles O52: each cell of the screen holds a graphics code, so each frame pixel is the canvas
pixel of its square. -/
theorem frameIsTheEnlargedCanvas : Obligations.FrameIsTheEnlargedCanvas := by
  intro s hgraphics
  refine ⟨_, _, _, _, exec_renderFrame s, answered_respond (SameInterface.rfl s) _,
    exec_getGraphicsSnapshot s, answered_respond (SameInterface.rfl s) _, fun px py hx hy => ?_⟩
  have hcell : isGraphics (s.cell (py / 12) (px / 8)) = true := by
    rw [isGraphics_iff, State.cell, cellAddr_natCast]
    exact hgraphics _ (by omega) (by omega)
  rw [s.getLsbD_frame hx hy, s.canvas_getD_eq_one_iff (by omega) (by omega),
    s.framePixel_eq_pixel hcell]

end Sys2Proof.Machine

namespace Sys2Proof.Machine

/-! ### Failing operations -/

/-- `Raises i f`: the operands of `i` make it fail with `f` (R211 to R213). The state has no part in it. -/
inductive Raises : Instr → Failure → Prop
  /-- R211 -/
  | romSize {data : List Byte} (hlen : ¬ (data.length = 16384 ∨ data.length = 14336)) :
      Raises (.loadROM data) .invalidROMSize
  /-- R212 -/
  | targetsROM {data : List Byte} {address : Int} (hne : data.length ≠ 0)
      (hbase : reduceAddr address < 0x4000) :
      Raises (.loadProgram data address) .programTargetsROM
  /-- R213, where R212 does not apply (R216). -/
  | tooLarge {data : List Byte} {address : Int} (hne : data.length ≠ 0)
      (hbase : ¬ reduceAddr address < 0x4000)
      (hend : (reduceAddr address + data.length - 1) % 65536 < reduceAddr address) :
      Raises (.loadProgram data address) .programTooLarge

/-- An operation whose operands make it fail does so in every state (R217). -/
theorem Raises.exec_eq {i : Instr} {f : Failure} (h : Raises i f) (s : State) :
    exec i s = .next (s.respond (Response.failure f)) := by
  cases h with
  | romSize hlen => exact exec_loadROM_of_length_ne hlen s
  | targetsROM hne hbase =>
    rw [exec_loadProgram, if_neg hne, if_pos hbase]
    rfl
  | tooLarge hne hbase hend =>
    rw [exec_loadProgram, if_neg hne, if_neg hbase, if_pos hend]
    rfl

/-- Any other operation answers OK. -/
theorem raises_or_exec_okay (i : Instr) (s : State) :
    (∃ f, Raises i f) ∨ ∃ (u : State) (v : Word) (p : List Byte),
      exec i s = .next (u.respond (Response.okay v p)) ∧ SameInterface s u := by
  cases i with
  | loadROM data =>
    by_cases hlen : data.length = 16384 ∨ data.length = 14336
    · obtain ⟨d, hexec, -⟩ := exec_loadROM_of_length hlen s
      exact .inr ⟨_, _, _, hexec, rfl, rfl⟩
    · exact .inl ⟨_, .romSize hlen⟩
  | loadProgram data address =>
    rw [exec_loadProgram]
    split
    · exact .inr ⟨_, _, _, rfl, SameInterface.rfl s⟩
    · next hne =>
      split
      · next hbase => exact .inl ⟨_, .targetsROM hne hbase⟩
      · next hbase =>
        split
        · next hend => exact .inl ⟨_, .tooLarge hne hbase hend⟩
        · exact .inr ⟨_, _, _, rfl, sameInterface_storeBytes ..⟩
  | _ =>
    obtain hokay | ⟨⟨_, hi⟩, -⟩ | ⟨⟨_, _, hi⟩, -⟩ := exec_ends _ s
    · exact .inr hokay
    · cases hi
    · cases hi

/-- A failed response comes from the operands, and carries nothing but the failure (R217). -/
theorem raises_of_exec_failed {i : Instr} {s t : State} {r : Response} {f : Failure}
    (hexec : exec i s = .next t) (hr : t.responses = s.responses ++ [r])
    (hf : r.status = .failed f) : Raises i f ∧ r = Response.failure f := by
  obtain ⟨g, hg⟩ | ⟨u, v, p, hokay, hu⟩ := raises_or_exec_okay i s
  · cases (hg.exec_eq s).symm.trans hexec
    obtain rfl := State.respond_eq rfl hr
    cases hf
    exact ⟨hg, rfl⟩
  · cases hokay.symm.trans hexec
    obtain rfl := (answered_respond hu _).unique hr
    cases hf

/-! ### Failing commands -/

/-- `Fails cmd f`: the command itself, apart from any state, fails with `f` (R210). -/
inductive Fails (cmd : Command) : Failure → Prop
  /-- R214 -/
  | illegal {e : Illegal} (hd : decode cmd = .error e) : Fails cmd .illegalCommand
  /-- R211 to R213 -/
  | raised {i : Instr} {f : Failure} (hd : decode cmd = .ok i) (hi : Raises i f) : Fails cmd f

/-- The step on a failing command: it is taken and the failure answered, in every state (R217). -/
theorem Fails.step_eq {cmd : Command} {f : Failure} (h : Fails cmd f) {s : State}
    {rest : List Command} (hq : s.commands = cmd :: rest) :
    step s = .next ({ s with commands := rest }.respond (Response.failure f)) := by
  cases h with
  | illegal hd => exact step_of_decode_error hq hd
  | raised hd hi => exact (step_of_decode_ok hq hd).trans (hi.exec_eq _)

/-- A failed response to a command means that the command is a failing one. -/
theorem fails_of_step_failed {s t : State} {cmd : Command} {rest : List Command} {r : Response}
    {f : Failure} (hq : s.commands = cmd :: rest) (hstep : step s = .next t)
    (hr : t.responses = s.responses ++ [r]) (hf : r.status = .failed f) :
    Fails cmd f ∧ r = Response.failure f := by
  cases hd : decode cmd with
  | error e =>
    cases (step_of_decode_error hq hd).symm.trans hstep
    obtain rfl := State.respond_eq rfl hr
    cases hf
    exact ⟨.illegal hd, rfl⟩
  | ok i =>
    rw [step_of_decode_ok hq hd] at hstep
    obtain ⟨hi, hfailure⟩ := raises_of_exec_failed hstep hr hf
    exact ⟨.raised hd hi, hfailure⟩

/-- Settles O9: the command is a failing one, so its step adds the bare failure and nothing else. -/
theorem failureLeavesTheBlockUnchanged : Obligations.FailureLeavesTheBlockUnchanged := by
  intro s t cmd rest r f hq hstep hr hf
  obtain ⟨hcmd, rfl⟩ := fails_of_step_failed hq hstep hr hf
  cases (hcmd.step_eq hq).symm.trans hstep
  exact ⟨sameBlock_respond _ _, rfl, rfl, rfl⟩

/-- Settles O10: the command fails whatever the state, so also in the one its first failure left. -/
theorem failureRepeats : Obligations.FailureRepeats := by
  intro s t cmd rest r f hq hstep hr hf
  obtain ⟨hcmd, rfl⟩ := fails_of_step_failed hq hstep hr hf
  cases (hcmd.step_eq hq).symm.trans hstep
  exact ⟨_, hcmd.step_eq rfl, sameBlock_respond _ _, rfl, List.append_assoc ..⟩

/-- Settles O11: the failures that operands raise are those of the two loads. -/
theorem onlyLoadsFail : Obligations.OnlyLoadsFail := by
  intro i s t r f hexec hr hf
  obtain ⟨hi, -⟩ := raises_of_exec_failed hexec hr hf
  cases hi with
  | romSize => exact .inl ⟨⟨_, rfl⟩, rfl⟩
  | targetsROM => exact .inr ⟨⟨_, _, rfl⟩, .inl rfl⟩
  | tooLarge => exact .inr ⟨⟨_, _, rfl⟩, .inr rfl⟩

/-- Settles O5: the step answers the bare failure, whose word has the code 0xFF on top of zeros. -/
theorem illegalCommandChangesNothing : Obligations.IllegalCommandChangesNothing :=
  fun _ _ _ _ hq hd =>
    ⟨_, _, step_of_decode_error hq hd, sameBlock_respond _ _, rfl, rfl, rfl, rfl⟩

end Sys2Proof.Machine

namespace Sys2Proof.Machine

/-! ### Runs -/

/-- Settles O8, by induction on the waiting commands: each step takes one and answers it once. -/
theorem runAnswersEveryCommand : Obligations.RunAnswersEveryCommand := by
  intro s
  generalize hq : s.commands = q
  induction q generalizing s with
  | nil => exact ⟨s, [], rfl, hq, (List.append_nil _).symm, rfl⟩
  | cons cmd rest ih =>
    obtain ⟨s', r, hstep, hcommands, hresponses⟩ := oneResponseForEachCommand s cmd rest hq
    obtain ⟨t, rs, hrun, hempty, hanswers, hlen⟩ := ih s' hcommands
    refine ⟨t, r :: rs, (run_succ core hstep).trans hrun, hempty, ?_, congrArg Nat.succ hlen⟩
    rw [hanswers, hresponses, List.append_assoc, List.singleton_append]

/-! ### The two loads -/

/-- What `loadROM` does with an image is the same in every state: it fails, or it installs one and the same
padded image (R121, R211). -/
theorem exec_loadROM_uniform (image : List Byte) : ∃ r : Response,
    (∀ s, exec (.loadROM image) s = .next (s.respond r)) ∨
      ∃ d, ∀ s, exec (.loadROM image) s = .next ((s.installROM d).markLoaded.respond r) := by
  by_cases h : image.length = 16384 ∨ image.length = 14336
  · refine ⟨Response.okay 0 [], .inr ?_⟩
    simp only [exec, execLoadROM]
    rcases h with hfull | hshort
    · exact ⟨image, fun _ => if_pos hfull⟩
    · refine ⟨image ++ List.replicate (Config.romSize - Config.romImageShort) 0x00, fun _ => ?_⟩
      rw [if_neg (by rw [hshort]; decide), if_pos hshort]
      rfl
  · exact ⟨_, .inl (exec_loadROM_of_length_ne h)⟩

/-- What `loadProgram` does with a program that the port can carry is the same in every state: a run of byte
writes within RAM, of no bytes where it is empty or fails (R126, R212, R213). -/
theorem exec_loadProgram_uniform {program : List Byte} (address : Int)
    (hlen : program.length ≤ 65535) : ∃ (base : Int) (d : List Byte) (r : Response),
      0x4000 ≤ base ∧ base + d.length ≤ 65536 ∧
        ∀ s, exec (.loadProgram program address) s = .next ((s.storeBytes base d).respond r) := by
  simp only [exec_loadProgram]
  split_ifs with hempty hrom hwrap
  · exact ⟨0x4000, [], _, by decide, by decide, fun _ => rfl⟩
  · exact ⟨0x4000, [], _, by decide, by decide, fun _ => rfl⟩
  · exact ⟨0x4000, [], _, by decide, by decide, fun _ => rfl⟩
  · exact ⟨reduceAddr address, program, _, by omega, by omega, fun _ => rfl⟩

/-- A run of byte writes does not see the responses. -/
theorem State.storeBytes_respond (s : State) (r : Response) (a : Int) (d : List Byte) :
    (s.respond r).storeBytes a d = (s.storeBytes a d).respond r := by
  induction d generalizing s a with
  | nil => rfl
  | cons b bs ih => rw [storeBytes_cons, storeBytes_cons, storeByte_respond, ih]

/-- A byte write to RAM and the installation of an image do not meet (R53, R57). -/
theorem State.storeByte_installROM_markLoaded (s : State) (image : List Byte) {a : Int} (v : Byte)
    (ha : 0x4000 ≤ reduceAddr a) :
    (s.installROM image).markLoaded.storeByte a v
      = ((s.storeByte a v).installROM image).markLoaded := by
  rw [storeByte_ram_eq _ v ha, storeByte_ram_eq _ v ha]
  rfl

/-- A run of byte writes within RAM and the installation of an image do not meet (R244). -/
theorem State.storeBytes_installROM_markLoaded (s : State) (image : List Byte) {base : Int}
    {d : List Byte} (hbase : 0x4000 ≤ base) (hend : base + d.length ≤ 65536) :
    (s.installROM image).markLoaded.storeBytes base d
      = ((s.storeBytes base d).installROM image).markLoaded := by
  induction d generalizing s base with
  | nil => rfl
  | cons b bs ih =>
    have hred := reduceAddr_eq base
    rw [List.length_cons] at hend
    rw [storeBytes_cons, storeBytes_cons,
      s.storeByte_installROM_markLoaded image b (by omega), ih _ (by omega) (by omega)]

/-- The order of two responses is no part of the block (R20). -/
theorem sameBlock_respond_comm (s : State) (r r' : Response) :
    SameBlock ((s.respond r).respond r') ((s.respond r').respond r) := ⟨rfl, rfl, rfl, rfl⟩

/-- Settles O35: what each load writes does not depend on the state, and the program's bytes all go to RAM,
where no image goes. -/
theorem loadsCommute : Obligations.LoadsCommute := by
  intro image program address s hlen
  obtain ⟨base, d, r', hbase, hend, hprogram⟩ := exec_loadProgram_uniform address hlen
  obtain ⟨r, hfails | ⟨padded, hinstalls⟩⟩ := exec_loadROM_uniform image
  · refine ⟨_, _, _, _, hfails s, hprogram _, hprogram s, hfails _, ?_⟩
    rw [State.storeBytes_respond]
    exact sameBlock_respond_comm _ r r'
  · refine ⟨_, _, _, _, hinstalls s, hprogram _, hprogram s, hinstalls _, ?_⟩
    rw [State.storeBytes_respond, s.storeBytes_installROM_markLoaded padded hbase hend]
    exact sameBlock_respond_comm _ r r'

end Sys2Proof.Machine

namespace Sys2Proof.Machine

/-- Settles O6: an empty queue leaves nothing to fetch, and the step's branch for that keeps the state. -/
theorem idleStepChangesNothing : Obligations.IdleStepChangesNothing :=
  fun _ hq => step_of_idle hq

end Sys2Proof.Machine
